-- ==== Sys2Proof/Word.lean ====
section
/-! DEFINITION. The word types of the MOJI-V3 RPR block (spec 00 R7, 20 R50). -/

namespace Sys2Proof

/-- One byte: a pixel's luminance, or one element of PACK_BUF or RLE_BUF (10 R24, R30, R31). -/
abbrev Byte := BitVec 8

/-- The 16-bit value of a 2-byte host access (20 R50). -/
abbrev Half := BitVec 16

/-- A 32-bit command word, register word or 4-byte host value (20 R50, 30 R80). -/
abbrev Word := BitVec 32

/-- A 16-bit host byte address (20 R50). -/
abbrev Addr := BitVec 16

end Sys2Proof
end

