-- ==== Sys2Proof/Config.lean ====
section
/-! DEFINITION. The block's parameters (spec 00 R5, R6) and the free values the spec leaves open
(93 U1 to U3). A free value is an opaque constant: nothing in Lean can evaluate it. -/

namespace Sys2Proof

/-- `W`: canvas width in pixels (R5). -/
abbrev Config.W : Nat := 128
/-- `H`: canvas height in pixels (R5). -/
abbrev Config.H : Nat := 64
/-- `NPIX = W*H`: pixels of the canvas (R5). -/
abbrev Config.NPIX : Nat := 8192
/-- `PACK_LEN`: bytes of a Packed Bitmap (R5). -/
abbrev Config.PACK_LEN : Nat := 1024
/-- `ROW_BYTES = W/8`: packed bytes of one canvas row (R5). -/
abbrev Config.ROW_BYTES : Nat := 16
/-- `SIZE_MIN`: smallest brush size (R5). -/
abbrev Config.SIZE_MIN : Nat := 1
/-- `SIZE_MAX`: largest brush size (R5). -/
abbrev Config.SIZE_MAX : Nat := 10
/-- `THRESH`: a pixel packs as 1 iff its luminance is strictly greater (R5). -/
abbrev Config.THRESH : Nat := 127
/-- `RUN_MAX`: largest run length of one pair (R5). -/
abbrev Config.RUN_MAX : Nat := 255
/-- `RLE_CAP`: bytes of RLE_BUF (R5). -/
abbrev Config.RLE_CAP : Nat := 2048
/-- `LUM_ON`: luminance of an on pixel (R5). -/
abbrev Config.LUM_ON : Byte := 255#8
/-- `LUM_OFF`: luminance of an off pixel (R5). -/
abbrev Config.LUM_OFF : Byte := 0#8

/-- PACK_BUF_INIT (10 R30, 93 U1): byte `i` of PACK_BUF after reset number `n`. A free value: the
spec fixes none, and each reset has a fresh one. DESIGN CHOICE (its form only), safe: log 2. -/
opaque Config.packBufInit (n i : Nat) : Byte

/-- RLE_BUF_INIT (10 R31, 93 U2): byte `i` of RLE_BUF after reset number `n`. A free value.
DESIGN CHOICE (its form only), safe: log 2. -/
opaque Config.rleBufInit (n i : Nat) : Byte

/-- What a host read that reset number `n` cuts short returns (70 R230, 93 U3): any value.
A free value. DESIGN CHOICE (its form only), safe: log 6. -/
opaque Config.cutReadValue (n : Nat) : Word

end Sys2Proof
end

