-- ==== Sys2Proof/Syntax.lean ====
section
/-! DEFINITION. The commands of the block: one constructor per row of spec/opcode_table.json
(30 R88), with the operands of 30 R87 as the integers they assemble to. -/

namespace Sys2Proof

/-- The brush mode: draw writes on, erase writes off, mutually exclusive (10 R26). -/
inductive BrushMode where
  | draw
  | erase
deriving DecidableEq, Repr

/-- A command. Operands are the assembled values of 30 R87, before the command's own clamping. -/
inductive Instr where
  /-- NOP (40 R106). -/
  | nop
  /-- BEGIN px, py (41 R128): a point in widget space. -/
  | beginStroke (px py : Int)
  /-- EXTEND px, py (41 R129): a point in widget space. -/
  | extendStroke (px py : Int)
  /-- END (41 R130). -/
  | endStroke
  /-- CLEAR (41 R131). -/
  | clear
  /-- SETSIZE sz (41 R132): the requested brush size. -/
  | setSize (sz : Nat)
  /-- SETMODE md (41 R133). -/
  | setMode (md : BrushMode)
  /-- SETVIEW vw, vh (41 R134): the widget's displayed width and height. -/
  | setView (vw vh : Nat)
  /-- PACK (42 R162). -/
  | pack
  /-- UNPACK (42 R163). -/
  | unpack
  /-- ENCODE (43 R182). -/
  | encodeRle
  /-- DECODE (43 R186). -/
  | decodeRle
deriving DecidableEq, Repr

/-- The mnemonic of a command as the opcode map spells it (30 R88). -/
def Instr.mnemonic : Instr → String
  | .nop => "NOP"
  | .beginStroke _ _ => "BEGIN"
  | .extendStroke _ _ => "EXTEND"
  | .endStroke => "END"
  | .clear => "CLEAR"
  | .setSize _ => "SETSIZE"
  | .setMode _ => "SETMODE"
  | .setView _ _ => "SETVIEW"
  | .pack => "PACK"
  | .unpack => "UNPACK"
  | .encodeRle => "ENCODE"
  | .decodeRle => "DECODE"

end Sys2Proof
end

