-- ==== Sys2Proof/WellFormed.lean ====
section
/-! DEFINITION. Which commands have a word: the operand limits of 30 R87 and R91. "An operand
outside its limits is an assembler error." -/

namespace Sys2Proof

/-- A widget coordinate fits the 14-bit two's complement field: -8192 to 8191 (R83, R87). -/
def fitsCoord (p : Int) : Bool := decide (-8192 ≤ p) && decide (p ≤ 8191)

/-- A brush size operand fits its 8-bit field: 0 to 255 (R84, R87). -/
def fitsSize (sz : Nat) : Bool := decide (sz ≤ 255)

/-- A widget dimension fits its 14-bit unsigned field: 0 to 16383 (R86, R87). -/
def fitsView (v : Nat) : Bool := decide (v ≤ 16383)

/-- Every operand is within its limits (R91). -/
def Instr.wellFormed : Instr → Bool
  | .nop => true
  | .beginStroke px py => fitsCoord px && fitsCoord py
  | .extendStroke px py => fitsCoord px && fitsCoord py
  | .endStroke => true
  | .clear => true
  | .setSize sz => fitsSize sz
  | .setMode _ => true
  | .setView vw vh => fitsView vw && fitsView vh
  | .pack => true
  | .unpack => true
  | .encodeRle => true
  | .decodeRle => true

end Sys2Proof
end

