-- ==== Sys2Proof/Decode.lean ====
section
/-! DEFINITION. Decoding a command word (30 R80 to R90), the encoder (30 R91), and the opcode map
(30 R88) as a table. A command is the 32-bit value the host writes to CMD; it never stands in a
memory (20 R67), so the decoder reads a word and not bytes (DEDUCED, safe: log 1). -/

namespace Sys2Proof

/-- The opcode field OP, `w[31:28]` (R81). -/
def opcodeOf (w : Word) : BitVec 4 := w.extractLsb' 28 4

/-- The 28 bits under the opcode, `w[27:0]` (R81): the reserved field of format N (R82). -/
def payloadOf (w : Word) : BitVec 28 := w.extractLsb' 0 28

/-- The low 14-bit field: PX of format P, VW of format V (R83, R86). -/
def lowField (w : Word) : BitVec 14 := w.extractLsb' 0 14

/-- The high 14-bit field: PY of format P, VH of format V (R83, R86). -/
def highField (w : Word) : BitVec 14 := w.extractLsb' 14 14

/-- `sext_14`: a 14-bit field read as two's complement (00 R8, 30 R87). -/
def sext14 (f : BitVec 14) : Int := f.toInt

/-- `zext_14`: a 14-bit field read as unsigned (00 R8, 30 R87). -/
def zext14 (f : BitVec 14) : Nat := f.toNat

/-- The SZ field of format S, `w[7:0]`, read as unsigned (R84, R87). -/
def sizeField (w : Word) : Nat := (w.extractLsb' 0 8).toNat

/-- The MD field of format M, `w[0]`: 0 draw, 1 erase (R85). -/
def modeField (w : Word) : BrushMode := if w.extractLsb' 0 1 = 0#1 then .draw else .erase

/-- Why a word is illegal (R89). -/
inductive DecodeError where
  /-- Its OP is 0xC, 0xD, 0xE or 0xF. -/
  | reservedOpcode
  /-- A reserved bit of format N, S or M is 1. -/
  | reservedBits
deriving DecidableEq, Repr

/-- A word of a format N command: every bit under the opcode is reserved and must be 0 (R82). -/
def decodeN (w : Word) (i : Instr) : Except DecodeError Instr :=
  if payloadOf w = 0#28 then .ok i else .error .reservedBits

/-- The SETSIZE word: `w[27:8]` is reserved (R84). -/
def decodeS (w : Word) : Except DecodeError Instr :=
  if w.extractLsb' 8 20 = 0#20 then .ok (.setSize (sizeField w)) else .error .reservedBits

/-- The SETMODE word: `w[27:1]` is reserved (R85). -/
def decodeM (w : Word) : Except DecodeError Instr :=
  if w.extractLsb' 1 27 = 0#27 then .ok (.setMode (modeField w)) else .error .reservedBits

/-- The command a word stands for, or why it is illegal (R81, R88, R89). Total on every word. -/
def decode (w : Word) : Except DecodeError Instr :=
  match (opcodeOf w).toNat with
  | 0 => decodeN w .nop
  | 1 => .ok (.beginStroke (sext14 (lowField w)) (sext14 (highField w)))
  | 2 => .ok (.extendStroke (sext14 (lowField w)) (sext14 (highField w)))
  | 3 => decodeN w .endStroke
  | 4 => decodeN w .clear
  | 5 => decodeS w
  | 6 => decodeM w
  | 7 => .ok (.setView (zext14 (lowField w)) (zext14 (highField w)))
  | 8 => decodeN w .pack
  | 9 => decodeN w .unpack
  | 10 => decodeN w .encodeRle
  | 11 => decodeN w .decodeRle
  | _ => .error .reservedOpcode

/-- `Illegal(w)` as 40 R100 writes it, independently of the decoder. -/
def illegalWord (w : Word) : Bool :=
  let op := (opcodeOf w).toNat
  [0xC, 0xD, 0xE, 0xF].contains op ||
  ([0x0, 0x3, 0x4, 0x8, 0x9, 0xA, 0xB].contains op && payloadOf w != 0#28) ||
  (op == 0x5 && w.extractLsb' 8 20 != 0#20) ||
  (op == 0x6 && w.extractLsb' 1 27 != 0#27)

/-! ### The encoder (R82 to R86, R91) -/

/-- Format N: opcode and 28 zero bits (R82). -/
def encodeN (op : BitVec 4) : Word := op ++ 0#28

/-- Format P: opcode, PY, PX (R83). -/
def encodeP (op : BitVec 4) (px py : Int) : Word := op ++ BitVec.ofInt 14 py ++ BitVec.ofInt 14 px

/-- Format S: opcode, 20 zero bits, SZ (R84). -/
def encodeS (op : BitVec 4) (sz : Nat) : Word := op ++ 0#20 ++ BitVec.ofNat 8 sz

/-- The bit of a brush mode: 0 draw, 1 erase (R85, 10 R26). -/
def BrushMode.bit : BrushMode → BitVec 1
  | .draw => 0#1
  | .erase => 1#1

/-- Format M: opcode, 27 zero bits, MD (R85). -/
def encodeM (op : BitVec 4) (md : BrushMode) : Word := op ++ 0#27 ++ md.bit

/-- Format V: opcode, VH, VW (R86). -/
def encodeV (op : BitVec 4) (vw vh : Nat) : Word := op ++ BitVec.ofNat 14 vh ++ BitVec.ofNat 14 vw

/-- The word of a well-formed command, as the assembler syntax gives it (R91). For an operand outside its
limits R91 gives no word (an assembler error, the operand is not wrapped); `encode` is total and gives the
low bits of the operand there: DESIGN CHOICE, unsafe for such terms only: log 15. -/
def encode : Instr → Word
  | .nop => encodeN 0x0#4
  | .beginStroke px py => encodeP 0x1#4 px py
  | .extendStroke px py => encodeP 0x2#4 px py
  | .endStroke => encodeN 0x3#4
  | .clear => encodeN 0x4#4
  | .setSize sz => encodeS 0x5#4 sz
  | .setMode md => encodeM 0x6#4 md
  | .setView vw vh => encodeV 0x7#4 vw vh
  | .pack => encodeN 0x8#4
  | .unpack => encodeN 0x9#4
  | .encodeRle => encodeN 0xA#4
  | .decodeRle => encodeN 0xB#4

/-! ### The opcode map (R88) -/

/-- The command formats of R82 to R86. -/
inductive Format where
  | N
  | P
  | S
  | M
  | V
deriving DecidableEq, Repr

/-- One row of the opcode map: a word is the row's command iff `w &&& mask = value`. -/
structure OpcodeRow where
  /-- the mnemonic -/
  mnemonic : String
  /-- the format -/
  format : Format
  /-- the column "match" -/
  value : Word
  /-- the column "mask" -/
  mask : Word
deriving DecidableEq, Repr

/-- The opcode map of R88, row by row. -/
def opcodeMap : List OpcodeRow :=
  [⟨"NOP", .N, 0x00000000#32, 0xFFFFFFFF#32⟩,
   ⟨"BEGIN", .P, 0x10000000#32, 0xF0000000#32⟩,
   ⟨"EXTEND", .P, 0x20000000#32, 0xF0000000#32⟩,
   ⟨"END", .N, 0x30000000#32, 0xFFFFFFFF#32⟩,
   ⟨"CLEAR", .N, 0x40000000#32, 0xFFFFFFFF#32⟩,
   ⟨"SETSIZE", .S, 0x50000000#32, 0xFFFFFF00#32⟩,
   ⟨"SETMODE", .M, 0x60000000#32, 0xFFFFFFFE#32⟩,
   ⟨"SETVIEW", .V, 0x70000000#32, 0xF0000000#32⟩,
   ⟨"PACK", .N, 0x80000000#32, 0xFFFFFFFF#32⟩,
   ⟨"UNPACK", .N, 0x90000000#32, 0xFFFFFFFF#32⟩,
   ⟨"ENCODE", .N, 0xA0000000#32, 0xFFFFFFFF#32⟩,
   ⟨"DECODE", .N, 0xB0000000#32, 0xFFFFFFFF#32⟩]

/-- A word is the command of a row (R88). -/
def OpcodeRow.matchesWord (r : OpcodeRow) (w : Word) : Bool := w &&& r.mask == r.value

/-! ### The host's numbering of a table word -/

/-- The command read from the `nbits` low bits of `w`, every higher bit of the 32-bit word being 0. -/
def decodeTableWord (nbits w : Nat) : Option Instr :=
  match decode (BitVec.ofNat 32 (w % 2 ^ nbits)) with
  | .ok i => some i
  | .error _ => none

end Sys2Proof
end

