-- ==== Sys2Proof/Machine/State.lean ====
section
/-! DEFINITION. The machine's state (spec 10 §2), the host's events (20 R50, R60, R61; 70 R230), the
reasons a step could stop, and the state after reset (70 R231). -/

namespace Sys2Proof.Machine

/-- The cells of one memory that differ from its reset contents, by rising index. What an unlisted
index reads as is `Bank.unlistedByte` (Machine/Ops.lean); the form is `Memory.wf` there. -/
abbrev Memory := List Host.Cell

/-- The size `n` of a host access: 1, 2 or 4 bytes (20 R50). -/
inductive AccessSize where
  | one
  | two
  | four
deriving DecidableEq, Repr

/-- One host bus access (20 R50, 30 R92). A write carries a value of its own width (20 R61). -/
inductive Access where
  /-- RD8, RD16, RD32: a read of `n` bytes at `a`. -/
  | read (a : Addr) (n : AccessSize)
  /-- WR8: a 1-byte write. -/
  | write8 (a : Addr) (v : Byte)
  /-- WR16: a 2-byte write. -/
  | write16 (a : Addr) (v : Half)
  /-- WR32: a 4-byte write. -/
  | write32 (a : Addr) (v : Word)
deriving DecidableEq, Repr

/-- What can happen to the block from outside: a bus access, or an assertion of the reset input,
which may cut short an access that the hold rule was holding (20 R63, 70 R230). DEDUCED, safe: log 7. -/
inductive HostEvent where
  | access (a : Access)
  | reset (cut : Option Access)
deriving DecidableEq, Repr

/-- The state: the table of 10 §2 ("Nothing else is state"), then three fields of the model's own. -/
structure State where
  /-- CANVAS: 8192 pixels of 8 bits, element `y*W + x` (10 R24). -/
  canvas : Memory
  /-- PACK_BUF: 1024 bytes (10 R30). -/
  packBuf : Memory
  /-- RLE_BUF: 2048 bytes (10 R31). -/
  rleBuf : Memory
  /-- BRUSH.SIZE (10 R26). -/
  brushSize : BitVec 4
  /-- BRUSH.MODE (10 R26). -/
  brushMode : BrushMode
  /-- STROKE.ACTIVE (10 R27). -/
  strokeActive : Bool
  /-- STROKE.LAST_X (10 R27). -/
  lastX : BitVec 7
  /-- STROKE.LAST_Y (10 R27). -/
  lastY : BitVec 6
  /-- VIEW.VIEW_W (10 R28). -/
  viewW : BitVec 14
  /-- VIEW.VIEW_H (10 R28). -/
  viewH : BitVec 14
  /-- RESULT.CODE (10 R29). -/
  resultCode : BitVec 4
  /-- RLE_LEN.LEN (10 R32). -/
  rleLen : BitVec 12
  /-- The MODEL's own: the host events not yet performed, oldest first. DESIGN CHOICE, safe: log 1. -/
  pending : List HostEvent
  /-- The MODEL's own: the value the last host read returned. DESIGN CHOICE, unsafe (its 0 at
  reset): log 5. -/
  busData : Word
  /-- The MODEL's own: how often reset was asserted, which numbers the free values. DESIGN CHOICE,
  unsafe (two runs share them): log 3. -/
  resets : Nat
deriving DecidableEq, Repr

/-- Why the machine stops with a fault. There is no such reason: the block takes no traps (60 R214) and
no entry of 93 has the treatment `stuck`. Nothing raises a fault. DEDUCED, unsafe: log 12. -/
inductive Fault where
deriving DecidableEq, Repr

/-- Why an instruction is refused. -/
inductive Refusal where
  /-- The instruction has no meaning in the model. Raised by no arm of `exec`: every command has its
  meaning. Safe. -/
  | notModelled (mnemonic : String)
deriving DecidableEq, Repr

/-- The block right after reset number `n` (70 R231), with no host event pending. Every index of the three
memories is unlisted: CANVAS reads 0, PACK_BUF and RLE_BUF read the parameters of reset number `n`
(10 R24, R30, R31). -/
def State.afterReset (n : Nat) : State where
  canvas := []
  packBuf := []
  rleBuf := []
  brushSize := 1#4
  brushMode := .draw
  strokeActive := false
  lastX := 0#7
  lastY := 0#6
  viewW := 128#14
  viewH := 64#14
  resultCode := 0#4
  rleLen := 0#12
  pending := []
  busData := 0#32
  resets := n

/-- The machine right after reset (70 R231, R232): idle, waiting for the host. The model's own fields
are empty or 0 (DESIGN CHOICE, unsafe: logs 1, 3, 5). -/
def State.reset : State := State.afterReset 0

end Sys2Proof.Machine
end

