-- ==== Sys2Proof/Machine/Flags.lean ====
section
/-! DEFINITION. The block's only status values are RESULT.CODE and STROKE.ACTIVE (spec 10 R22): the
result codes of 60 R210. -/

namespace Sys2Proof.Machine

/-- The outcomes a command reports (60 R210). Codes 6 to 15 are never produced. -/
inductive ResultCode where
  /-- The command completed. -/
  | ok
  /-- A reserved opcode or a set reserved bit. -/
  | illegal
  /-- `RLE_LEN.LEN > 2048`. -/
  | rleTooLong
  /-- `RLE_LEN.LEN` is odd. -/
  | rleOdd
  /-- A run byte of the frame is 0. -/
  | rleZeroRun
  /-- The runs do not sum to 1024. -/
  | rleLength
deriving DecidableEq, Repr

/-- The value a result code has in RESULT.CODE (60 R210). -/
def ResultCode.code : ResultCode → BitVec 4
  | .ok => 0#4
  | .illegal => 1#4
  | .rleTooLong => 2#4
  | .rleOdd => 3#4
  | .rleZeroRun => 4#4
  | .rleLength => 5#4

/-- `RESULT.CODE <- c` (40 R105). -/
def State.setResult (s : State) (c : ResultCode) : State := { s with resultCode := c.code }

end Sys2Proof.Machine
end

