-- ==== Sys2Proof/Machine/Ops.lean ====
section
/-! DEFINITION. The named operations over memory and state: the three memories by element (spec 20 R62),
completing and failing a command (00 R9), reset (70 R230). -/

namespace Sys2Proof.Machine

/-! ### The three memories of 10 §2 -/

/-- The memories a command reaches by index (10 R36, 20 R62). -/
inductive Bank where
  | canvas
  | packBuf
  | rleBuf
deriving DecidableEq, Repr

/-- The number of 8-bit elements of a memory (10 §2). -/
def Bank.size : Bank → Nat
  | .canvas => Config.NPIX
  | .packBuf => Config.PACK_LEN
  | .rleBuf => Config.RLE_CAP

/-- The reset contents where the spec gives them: CANVAS is all LUM_OFF (10 R24); the buffers have none
(10 R30, R31). -/
def Bank.resetByte : Bank → Option Byte
  | .canvas => some Config.LUM_OFF
  | .packBuf => none
  | .rleBuf => none

/-- What an unlisted index reads as after reset number `n`: the spec's reset value, or the free value
PACK_BUF_INIT or RLE_BUF_INIT (10 R24, R30, R31). DESIGN CHOICE (the free values' form), safe: log 2. -/
def Bank.unlistedByte (k : Bank) (n i : Nat) : Byte :=
  match k with
  | .canvas => Config.LUM_OFF
  | .packBuf => Config.packBufInit n i
  | .rleBuf => Config.rleBufInit n i

/-- The byte listed at an index, if one is. -/
def Memory.listed (m : Memory) (i : Nat) : Option Byte :=
  match m with
  | [] => none
  | c :: t => if c.1 = i then some c.2 else Memory.listed t i

/-- The cells that list `bs` from index `base` on: none for a byte equal to the reset value. -/
def Memory.cells (reset : Option Byte) (base : Nat) (bs : List Byte) : Memory :=
  match bs with
  | [] => []
  | b :: t =>
    if some b = reset then Memory.cells reset (base + 1) t
    else (base, b) :: Memory.cells reset (base + 1) t

/-- Write `bs` at the indices from `base` on, keeping the canonical form. -/
def Memory.write (reset : Option Byte) (m : Memory) (base : Nat) (bs : List Byte) : Memory :=
  m.filter (fun c => decide (c.1 < base)) ++ Memory.cells reset base bs ++
    m.filter (fun c => decide (base + bs.length ≤ c.1))

/-- The canonical form: indices strictly rising and below the size, and no cell equal to the reset
value where the spec gives one. DESIGN CHOICE, safe: log 4. -/
def Memory.wf (k : Bank) (m : Memory) : Bool :=
  decide ((m.map (·.1)).Pairwise (· < ·)) && m.all (fun c => decide (c.1 < k.size)) &&
    m.all (fun c => decide (some c.2 ≠ k.resetByte))

/-- The memory of a bank. -/
def State.bank (s : State) : Bank → Memory
  | .canvas => s.canvas
  | .packBuf => s.packBuf
  | .rleBuf => s.rleBuf

/-- Replace the memory of a bank. -/
def State.setBank (s : State) (k : Bank) (m : Memory) : State :=
  match k with
  | .canvas => { s with canvas := m }
  | .packBuf => { s with packBuf := m }
  | .rleBuf => { s with rleBuf := m }

/-- `CANVAS[..]`, `PACK_BUF[i]` or `RLE_BUF[i]` read (00 R9). -/
def State.readByte (s : State) (k : Bank) (i : Nat) : Byte :=
  (Memory.listed (s.bank k) i).getD (k.unlistedByte s.resets i)

/-- The first `n` bytes of a memory, in order. -/
def State.readBytes (s : State) (k : Bank) (n : Nat) : List Byte :=
  (List.range n).map (s.readByte k)

/-- Write `bs` to the elements from `base` on (00 R9), as one block (DEDUCED, safe: log 14). No command writes
past a memory's end; bytes that would are dropped (DESIGN CHOICE, unsafe: log 8). -/
def State.writeBytes (s : State) (k : Bank) (base : Nat) (bs : List Byte) : State :=
  s.setBank k (Memory.write k.resetByte (s.bank k) base (bs.take (k.size - base)))

/-- `CANVAS[x, y]`: element `y*W + x` (10 R24). -/
def State.pixel (s : State) (x y : Nat) : Byte := s.readByte .canvas (y * Config.W + x)

/-- Pixel `(x, y)` is on (10 R25). -/
def State.isOn (s : State) (x y : Nat) : Bool := s.pixel x y == Config.LUM_ON

/-! ### Ending a command -/

/-- A command that completes writes OK as its last effect (00 R9, 40 R105). -/
def State.complete (s : State) : State := s.setResult .ok

/-- `raise <Code>` (00 R9): the block's only form of exception. It records the code and nothing else: no
address, no word, no mode and no control transfer (60 R211, R214). There is no return from it (60 R215). -/
def State.raise (s : State) (c : ResultCode) : State := s.setResult c

/-! ### Reset -/

/-- Reset asserted (70 R230, R231): every piece of the block's state takes its reset value, with fresh
buffer parameters (93 U1, U2). The host's own view, `pending` and `busData`, is not the block's and
stays (DEDUCED, safe: log 7). -/
def State.resetBlock (s : State) : State :=
  { State.afterReset (s.resets + 1) with pending := s.pending, busData := s.busData }

end Sys2Proof.Machine
end

