-- ==== Sys2Proof/Machine/Operands.lean ====
section
/-! DEFINITION. Operand forms: clamping and correction of inputs (spec 41 R120, R132, R134) and the span
of a square (41 R122). Arithmetic is on mathematical integers (00 R8). -/

namespace Sys2Proof.Machine

/-- `clamp(v, lo, hi)` (00 R8). -/
def clamp (v lo hi : Int) : Int := if v < lo then lo else if hi < v then hi else v

/-- Map a widget coordinate `p` to an axis of `n` canvas positions, against a displayed size `view` (R120).
`/` rounds toward minus infinity for a positive divisor. `view` is never 0 in a state a run reaches; for 0,
Lean's `/` gives 0 (DESIGN CHOICE, unsafe: log 11). -/
def mapCoord (p : Int) (view n : Nat) : Int := clamp (p * n / view) 0 (n - 1)

/-- `MapX(px)` (R120). -/
def State.mapX (s : State) (px : Int) : Int := mapCoord px s.viewW.toNat Config.W

/-- `MapY(py)` (R120). -/
def State.mapY (s : State) (py : Int) : Int := mapCoord py s.viewH.toNat Config.H

/-- A closed interval of positions on one axis. -/
structure Interval where
  /-- the lowest position -/
  lo : Int
  /-- the highest position -/
  hi : Int
deriving DecidableEq, Repr

/-- `Span(c, s, N)` (R122): the positions a square of size `size` centred at `c` covers on an axis of `n`. -/
def span (c : Int) (size n : Nat) : Interval where
  lo := max 0 (c - size / 2)
  hi := min (n - 1) (c - size / 2 + size - 1)

/-- The brush size SETSIZE stores: `clamp(sz, 1, 10)` (R132). -/
def clampSize (sz : Nat) : BitVec 4 :=
  BitVec.ofNat 4 (clamp sz Config.SIZE_MIN Config.SIZE_MAX).toNat

/-- The VIEW field SETVIEW stores: the 14-bit operand, or 1 if it is 0 (R134). An operand beyond
14 bits, which no word holds, is cut to its low 14 bits (DESIGN CHOICE, unsafe: log 15). -/
def viewField (v : Nat) : BitVec 14 :=
  if BitVec.ofNat 14 v = 0#14 then 1#14 else BitVec.ofNat 14 v

end Sys2Proof.Machine
end

