-- ==== Sys2Proof/Machine/Bus.lean ====
section
/-! DEFINITION. The host bus (spec 20): the address map, register words, reads, and the data part of
writes. Writes to CMD are in Machine/Issue.lean. -/

namespace Sys2Proof.Machine

/-- The number of bytes of an access (20 R50). -/
def AccessSize.bytes : AccessSize → Nat
  | .one => 1
  | .two => 2
  | .four => 4

/-- `addr mod n = 0` (R58). -/
def aligned (a : Addr) (n : AccessSize) : Bool := a.toNat % n.bytes == 0

/-- Register space: 0x0000 to 0x0FFF (R52). -/
def inRegisterSpace (a : Addr) : Bool := decide (a.toNat < 0x1000)

/-- The RESULT register word (10 R29). -/
def State.resultWord (s : State) : Word := 0#28 ++ s.resultCode

/-- The BRUSH register word (10 R26). -/
def State.brushWord (s : State) : Word := 0#23 ++ s.brushMode.bit ++ 0#4 ++ s.brushSize

/-- The STROKE register word (10 R27). -/
def State.strokeWord (s : State) : Word :=
  0#10 ++ s.lastY ++ 0#1 ++ s.lastX ++ 0#7 ++ BitVec.ofBool s.strokeActive

/-- The VIEW register word (10 R28). -/
def State.viewWord (s : State) : Word := 0#2 ++ s.viewH ++ 0#2 ++ s.viewW

/-- The RLE_LEN register word (10 R32). -/
def State.rleLenWord (s : State) : Word := 0#20 ++ s.rleLen

/-- `RegWord(addr)` (R60): 0 for CMD and for every reserved register address (10 R23, R33). -/
def State.regWord (s : State) (a : Nat) : Word :=
  if a = 0x0004 then s.resultWord
  else if a = 0x0008 then s.brushWord
  else if a = 0x000C then s.strokeWord
  else if a = 0x0010 then s.viewWord
  else if a = 0x0014 then s.rleLenWord
  else 0#32

/-- Where the address map puts a byte address above register space: a memory and an index, or nothing
for a reserved address (R51, R53 to R56). -/
def windowOf (a : Nat) : Option (Bank × Nat) :=
  if 0x1000 ≤ a ∧ a ≤ 0x13FF then some (.packBuf, a - 0x1000)
  else if 0x2000 ≤ a ∧ a ≤ 0x27FF then some (.rleBuf, a - 0x2000)
  else if 0x4000 ≤ a ∧ a ≤ 0x5FFF then some (.canvas, a - 0x4000)
  else none

/-- `ByteAt(a)` (R60): 0 at a reserved address. -/
def State.byteAt (s : State) (a : Nat) : Byte :=
  match windowOf a with
  | some (k, i) => s.readByte k i
  | none => 0#8

/-- The little-endian value of the `n` bytes at `a` (R57, R60). -/
def State.windowWord (s : State) (a : Nat) (n : AccessSize) : Word :=
  match n with
  | .one => (s.byteAt a).setWidth 32
  | .two => (s.byteAt (a + 1) ++ s.byteAt a).setWidth 32
  | .four => s.byteAt (a + 3) ++ s.byteAt (a + 2) ++ s.byteAt (a + 1) ++ s.byteAt a

/-- `MemRead(addr, n)` (R60). -/
def State.memRead (s : State) (a : Addr) (n : AccessSize) : Word :=
  if aligned a n then
    if inRegisterSpace a then
      if n = .four then s.regWord a.toNat else 0#32
    else s.windowWord a.toNat n
  else 0#32

/-- A host write of one byte above register space: to PACK_BUF or RLE_BUF; ignored in the CANVAS window
and at reserved addresses (R53 to R56, R61). -/
def State.storeByte (s : State) (a : Nat) (b : Byte) : State :=
  match windowOf a with
  | some (.packBuf, i) => s.writeBytes .packBuf i [b]
  | some (.rleBuf, i) => s.writeBytes .rleBuf i [b]
  | some (.canvas, _) => s
  | none => s

/-- The loop of `MemWrite` (R61): byte `k` of the value, bits `8k+7 : 8k`, goes to `a + k` (R57). -/
def State.storeWindow (s : State) (a : Nat) (n : AccessSize) (v : Word) : State :=
  (List.range n.bytes).foldl (fun t k => t.storeByte (a + k) (v.extractLsb' (8 * k) 8)) s

/-- A 32-bit write to a register other than CMD: only RLE_LEN takes it, as `LEN <- v[11:0]` (10 R32, R61). -/
def State.writeRegister (s : State) (a : Nat) (v : Word) : State :=
  if a = 0x0014 then { s with rleLen := v.extractLsb' 0 12 } else s

/-- The value reset number `n` makes a held read of `size` bytes return: any value of that width
(70 R230, 93 U3). DESIGN CHOICE (its form), safe: log 6. -/
def cutReadData (n : Nat) (size : AccessSize) : Word :=
  match size with
  | .one => ((Config.cutReadValue n).setWidth 8).setWidth 32
  | .two => ((Config.cutReadValue n).setWidth 16).setWidth 32
  | .four => Config.cutReadValue n

/-- What reset does to an access it cuts short (70 R230): a held write has no effect; a held read returns an
unspecified value. -/
def State.cutAccess (s : State) (cut : Option Access) : State :=
  match cut with
  | some (.read _ n) => { s with busData := cutReadData s.resets n }
  | some (.write8 _ _) => s
  | some (.write16 _ _) => s
  | some (.write32 _ _) => s
  | none => s

/-- Reset asserted, cutting short the access the hold rule was holding, if there was one (70 R230). -/
def State.resetEvent (s : State) (cut : Option Access) : State := s.resetBlock.cutAccess cut

end Sys2Proof.Machine
end

