-- ==== Sys2Proof/Machine/BitPacker.lean ====
section
/-! DEFINITION. The Bit-Packer (spec 42): the layout of a Packed Bitmap, PACK and UNPACK. -/

namespace Sys2Proof.Machine

/-- The column of bit `b` of packed byte `i` (R160). -/
def packColumn (i b : Nat) : Nat := i % Config.ROW_BYTES * 8 + b

/-- The row of packed byte `i` (R160). -/
def packRow (i : Nat) : Nat := i / Config.ROW_BYTES

/-- The packed byte of pixel `(x, y)` (R160, the other way). -/
def packByteIndex (x y : Nat) : Nat := y * Config.ROW_BYTES + x / 8

/-- The bit of pixel `(x, y)` in its packed byte (R160, R161). -/
def packBitIndex (x : Nat) : Nat := x % 8

/-- A luminance packs as 1 iff it is strictly greater than THRESH (R162). -/
def overThreshold (lum : Byte) : Bool := decide (Config.THRESH < lum.toNat)

/-- The byte whose bit `b`, of weight `2^b`, is `f b` (R161, R162). -/
def byteOfBits (f : Nat → Bool) : Byte :=
  BitVec.ofNat 8 ((List.range 8).map (fun b => if f b then 2 ^ b else 0)).sum

/-- Packed byte `i` of the canvas (the inner loop of R162). -/
def State.packedByte (s : State) (i : Nat) : Byte :=
  byteOfBits (fun b => overThreshold (s.pixel (packColumn i b) (packRow i)))

/-- The Packed Bitmap of the canvas (R162). -/
def State.packedBytes (s : State) : List Byte := (List.range Config.PACK_LEN).map s.packedByte

/-- The luminance PACK_BUF gives canvas element `e`, the pixel `(e mod W, e div W)` (R163, 10 R24). -/
def State.unpackedPixel (s : State) (e : Nat) : Byte :=
  if (s.readByte .packBuf (packByteIndex (e % Config.W) (e / Config.W))).getLsbD
      (packBitIndex (e % Config.W)) then Config.LUM_ON else Config.LUM_OFF

/-- The canvas PACK_BUF stands for, element by element (R163). -/
def State.unpackedPixels (s : State) : List Byte := (List.range Config.NPIX).map s.unpackedPixel

/-- PACK: threshold the CANVAS into PACK_BUF (R162). -/
def execPack (s : State) : Host.Outcome State Fault Refusal :=
  .next (s.writeBytes .packBuf 0 s.packedBytes).complete

/-- UNPACK: load PACK_BUF into the CANVAS (R163). -/
def execUnpack (s : State) : Host.Outcome State Fault Refusal :=
  .next (s.writeBytes .canvas 0 s.unpackedPixels).complete

end Sys2Proof.Machine
end

