-- ==== Sys2Proof/Machine/Control.lean ====
section
/-! DEFINITION. NOP and the illegal word (spec 40 R103, R106). -/

namespace Sys2Proof.Machine

/-- NOP: `RESULT.CODE <- OK` (40 R106). -/
def execNop (s : State) : Host.Outcome State Fault Refusal := .next s.complete

/-- The effect of an illegal word: `RESULT.CODE <- ILLEGAL`, nothing else (40 R103). -/
def illegalCommand (s : State) : Host.Outcome State Fault Refusal := .next (s.raise .illegal)

end Sys2Proof.Machine
end

