-- ==== Sys2Proof/Machine/Rasterizer.lean ====
section
/-! DEFINITION. The Rasterizer (spec 41): plot, line points, and the commands BEGIN, EXTEND, END, CLEAR,
SETSIZE, SETMODE and SETVIEW. -/

namespace Sys2Proof.Machine

/-- A canvas point, in mathematical integers (00 R8). -/
structure Point where
  /-- the column, from the left -/
  x : Int
  /-- the row -/
  y : Int
deriving DecidableEq, Repr

/-- `PlotValue()` (R123). -/
def State.plotValue (s : State) : Byte :=
  match s.brushMode with
  | .draw => Config.LUM_ON
  | .erase => Config.LUM_OFF

/-- How many positions an interval covers. -/
def Interval.count (i : Interval) : Nat := (i.hi - i.lo + 1).toNat

/-- Write `v` to the pixels of row `y` over a span of columns. -/
def State.fillRow (s : State) (xs : Interval) (v : Byte) (y : Nat) : State :=
  s.writeBytes .canvas (y * Config.W + xs.lo.toNat) (List.replicate xs.count v)

/-- Write `v` to every pixel of a rectangle, row by row (the loops of R124). -/
def State.fillRect (s : State) (xs ys : Interval) (v : Byte) : State :=
  (List.range ys.count).foldl (fun t j => t.fillRow xs v (ys.lo.toNat + j)) s

/-- `Plot(cx, cy)` (R124): reads BRUSH now, and writes the pixels of the square. -/
def State.plot (s : State) (c : Point) : State :=
  s.fillRect (span c.x s.brushSize.toNat Config.W) (span c.y s.brushSize.toNat Config.H) s.plotValue

/-- The stepping loop of R125 from `(x, y)` to `(ex, ey)`, with the error term `err`. The first argument
bounds the number of points. -/
def lineLoop (ex ey dx dy sx sy : Int) (fuel : Nat) (x y err : Int) : List Point :=
  match fuel with
  | 0 => []
  | fuel + 1 =>
    ⟨x, y⟩ ::
      if x = ex ∧ y = ey then []
      else
        lineLoop ex ey dx dy sx sy fuel
          (if dy ≤ 2 * err then x + sx else x)
          (if 2 * err ≤ dx then y + sy else y)
          (err + (if dy ≤ 2 * err then dy else 0) + (if 2 * err ≤ dx then dx else 0))

/-- Bresenham stepping from `a` to `b`, in the order given (R125). Every turn of the loop moves in at
least one axis, so the distance in both axes together bounds it (DEDUCED, safe: log 13). -/
def bresenham (a b : Point) : List Point :=
  let dx : Int := (b.x - a.x).natAbs
  let dy : Int := -((b.y - a.y).natAbs : Int)
  lineLoop b.x b.y dx dy (if a.x < b.x then 1 else -1) (if a.y < b.y then 1 else -1)
    ((b.x - a.x).natAbs + (b.y - a.y).natAbs + 1) a.x a.y (dx + dy)

/-- Whether the endpoints change places for the canonical order: smaller x first, then smaller y (R125). -/
def Point.precedes (b a : Point) : Bool := decide (b.x < a.x ∨ (b.x = a.x ∧ b.y < a.y))

/-- `LinePoints(a, b)` (R125). -/
def linePoints (a b : Point) : List Point :=
  if b.precedes a then bresenham b a else bresenham a b

/-- `DrawLine(a, b)` (R127): plot every point of the line. -/
def State.drawLine (s : State) (a b : Point) : State :=
  (linePoints a b).foldl (fun t p => t.plot p) s

/-- The canvas point an input point maps to (R120). -/
def State.mapPoint (s : State) (px py : Int) : Point := ⟨s.mapX px, s.mapY py⟩

/-- STROKE.LAST (10 R27). -/
def State.lastPoint (s : State) : Point := ⟨(s.lastX.toNat : Int), (s.lastY.toNat : Int)⟩

/-- `STROKE.LAST_X <- x; STROKE.LAST_Y <- y`. -/
def State.setLast (s : State) (p : Point) : State :=
  { s with lastX := BitVec.ofInt 7 p.x, lastY := BitVec.ofInt 6 p.y }

/-- `STROKE.ACTIVE <- b`. -/
def State.setActive (s : State) (b : Bool) : State := { s with strokeActive := b }

/-- BEGIN px, py: start a stroke (R128). -/
def execBegin (px py : Int) (s : State) : Host.Outcome State Fault Refusal :=
  .next ((((s.plot (s.mapPoint px py)).setActive true).setLast (s.mapPoint px py)).complete)

/-- EXTEND px, py: continue the stroke to a new point; with no stroke, only RESULT changes (R129). -/
def execExtend (px py : Int) (s : State) : Host.Outcome State Fault Refusal :=
  if s.strokeActive then
    .next (((s.drawLine s.lastPoint (s.mapPoint px py)).setLast (s.mapPoint px py)).complete)
  else .next s.complete

/-- END: terminate the stroke, keeping LAST (R130). -/
def execEnd (s : State) : Host.Outcome State Fault Refusal := .next (s.setActive false).complete

/-- CLEAR: every pixel off (R131). -/
def execClear (s : State) : Host.Outcome State Fault Refusal :=
  .next (s.writeBytes .canvas 0 (List.replicate Config.NPIX Config.LUM_OFF)).complete

/-- SETSIZE sz: `BRUSH.SIZE <- clamp(sz, 1, 10)` (R132). -/
def execSetSize (sz : Nat) (s : State) : Host.Outcome State Fault Refusal :=
  .next ({ s with brushSize := clampSize sz }).complete

/-- SETMODE md: `BRUSH.MODE <- md` (R133). -/
def execSetMode (md : BrushMode) (s : State) : Host.Outcome State Fault Refusal :=
  .next ({ s with brushMode := md }).complete

/-- SETVIEW vw, vh: each field at least 1 (R134). -/
def execSetView (vw vh : Nat) (s : State) : Host.Outcome State Fault Refusal :=
  .next ({ s with viewW := viewField vw, viewH := viewField vh }).complete

end Sys2Proof.Machine
end

