-- ==== Sys2Proof/Machine/RleCodec.lean ====
section
/-! DEFINITION. The Run-Length Codec (spec 43): encoding, expansion, validation, ENCODE and DECODE. -/

namespace Sys2Proof.Machine

/-- The pair `(run, value)`, run byte first (R180). -/
def rlePair (r : Nat) (v : Byte) : List Byte := [BitVec.ofNat 8 r, v]

/-- The greedy scan of R181 inside a run of `r` copies of `v` already read: it lengthens the run while
the next byte is equal and the run is below RUN_MAX, else it emits the pair and starts the next run. -/
def rleScan (v : Byte) (r : Nat) (bs : List Byte) : List Byte :=
  match bs with
  | [] => rlePair r v
  | b :: t =>
    if b = v ∧ r < Config.RUN_MAX then rleScan v (r + 1) t
    else rlePair r v ++ rleScan b 1 t

/-- `RLEncode(b)` (R181). -/
def rlEncode (bs : List Byte) : List Byte :=
  match bs with
  | [] => []
  | b :: t => rleScan b 1 t

/-- `RLExpand(f)` (R184). -/
def rlExpand (f : List Byte) : List Byte :=
  match f with
  | r :: v :: t => List.replicate r.toNat v ++ rlExpand t
  | _ => []

/-- `RLE_LEN.LEN` as a number. -/
def State.frameLen (s : State) : Nat := s.rleLen.toNat

/-- The run bytes `RLE_BUF[2k]` of the frame, `k` from 0 to `n/2 - 1` (R185). -/
def State.frameRuns (s : State) (n : Nat) : List Byte :=
  (List.range (n / 2)).map (fun k => s.readByte .rleBuf (2 * k))

/-- `Validate(n)` (R185): the first code that applies, in this order. -/
def State.validate (s : State) (n : Nat) : ResultCode :=
  if Config.RLE_CAP < n then .rleTooLong
  else if n % 2 = 1 then .rleOdd
  else if (s.frameRuns n).any (fun r => r == 0#8) then .rleZeroRun
  else if ((s.frameRuns n).map (·.toNat)).sum ≠ Config.PACK_LEN then .rleLength
  else .ok

/-- The frame ENCODE makes of PACK_BUF (R182). -/
def State.encodedFrame (s : State) : List Byte := rlEncode (s.readBytes .packBuf Config.PACK_LEN)

/-- ENCODE: compress PACK_BUF into RLE_BUF and set RLE_LEN (R182). -/
def execEncode (s : State) : Host.Outcome State Fault Refusal :=
  .next
    ({ s.writeBytes .rleBuf 0 s.encodedFrame with
        rleLen := BitVec.ofNat 12 s.encodedFrame.length }).complete

/-- DECODE: validate the frame, then expand it into PACK_BUF, or raise and write nothing else (R186). -/
def execDecode (s : State) : Host.Outcome State Fault Refusal :=
  match s.validate s.frameLen with
  | .ok => .next (s.writeBytes .packBuf 0 (rlExpand (s.readBytes .rleBuf s.frameLen))).complete
  | c => .next (s.raise c)

end Sys2Proof.Machine
end

