-- ==== Sys2Proof/Machine/Dispatch.lean ====
section
/-! DEFINITION. One arm per command: the case of spec 40 R100. -/

namespace Sys2Proof.Machine

def exec (i : Instr) (s : State) : Host.Outcome State Fault Refusal :=
  match i with
  | .nop => Sys2Proof.Machine.execNop s
  | .beginStroke px py => Sys2Proof.Machine.execBegin px py s
  | .extendStroke px py => Sys2Proof.Machine.execExtend px py s
  | .endStroke => Sys2Proof.Machine.execEnd s
  | .clear => Sys2Proof.Machine.execClear s
  | .setSize sz => Sys2Proof.Machine.execSetSize sz s
  | .setMode md => Sys2Proof.Machine.execSetMode md s
  | .setView vw vh => Sys2Proof.Machine.execSetView vw vh s
  | .pack => Sys2Proof.Machine.execPack s
  | .unpack => Sys2Proof.Machine.execUnpack s
  | .encodeRle => Sys2Proof.Machine.execEncode s
  | .decodeRle => Sys2Proof.Machine.execDecode s

end Sys2Proof.Machine
end

