-- ==== Sys2Proof/Machine/Issue.lean ====
section
/-! DEFINITION. How a CMD write becomes a command (spec 40 R100, R101), host writes (20 R61), and the
order of host events (20 R63, R64; 70 R230). -/

namespace Sys2Proof.Machine

/-- `IssueCommand(w)` (40 R100): an illegal word reports ILLEGAL, any other runs as its command. -/
def issueCommand (w : Word) (s : State) : Host.Outcome State Fault Refusal :=
  match decode w with
  | .ok i => exec i s
  | .error _ => illegalCommand s

/-- `MemWrite(addr, n, v)` (20 R61). A 32-bit write to CMD issues the command `v`. Of a value past R61's limit
`v < 2^(8n)`, which no step gives, it takes the low `8n` bits: DESIGN CHOICE, unsafe for such values only:
log 17. -/
def memWrite (a : Addr) (n : AccessSize) (v : Word) (s : State) : Host.Outcome State Fault Refusal :=
  if aligned a n then
    if inRegisterSpace a then
      if n = .four then
        if a = 0x0000#16 then issueCommand v s else .next (s.writeRegister a.toNat v)
      else .next s
    else .next (s.storeWindow a.toNat n v)
  else .next s

/-- One host access, performed whole (20 R59, R63). A read changes nothing of the block; its value goes to
the host (DESIGN CHOICE, safe: log 5). -/
def performAccess (x : Access) (s : State) : Host.Outcome State Fault Refusal :=
  match x with
  | .read a n => .next { s with busData := s.memRead a n }
  | .write8 a v => memWrite a .one (v.setWidth 32) s
  | .write16 a v => memWrite a .two (v.setWidth 32) s
  | .write32 a v => memWrite a .four v s

/-- One event from outside (20 R63, 70 R230). -/
def performEvent (e : HostEvent) (s : State) : Host.Outcome State Fault Refusal :=
  match e with
  | .access x => performAccess x s
  | .reset cut => .next (s.resetEvent cut)

/-- The next event in the host's order (20 R64). With none, the engine is idle and nothing changes
(00 R13, 60 R222). DEDUCED, safe: log 1. -/
def serveNext (s : State) : Host.Outcome State Fault Refusal :=
  match s.pending with
  | [] => .next s
  | e :: rest => performEvent e { s with pending := rest }

/-- Put a command word first in the host's order: a 32-bit write to CMD (30 R80, 20 R52). -/
def State.placeCommand (s : State) (w : Word) : State :=
  { s with pending := .access (.write32 0x0000#16 w) :: s.pending }

end Sys2Proof.Machine
end

