-- ==== Sys2Proof/Machine/Step.lean ====
section
/-! DEFINITION. One step: one host event, with the whole effect of the command it issues (spec 20 R63,
40 R101). -/

namespace Sys2Proof.Machine

/-- One step of the machine: the next host event (20 R64). -/
def step (s : State) : Host.Outcome State Fault Refusal := serveNext s

/-- The state whose very next step issues the command word of the `nbits` low bits of `w`: a 32-bit write
to CMD stands first among the pending host events. DESIGN CHOICE, safe: log 1. -/
def State.withFetchWord (s : State) (nbits w : Nat) : State :=
  s.placeCommand (BitVec.ofNat 32 (w % 2 ^ nbits))

end Sys2Proof.Machine
end

