-- ==== Sys2Proof/Machine/HostSyntax.lean ====
section
/-! DEFINITION. The host-access syntax and pseudo-instructions of spec 30 R92: what a host program's lines
stand for, as bus accesses. -/

namespace Sys2Proof.Machine

/-- `RD8 a`. -/
def Access.rd8 (a : Addr) : Access := .read a .one

/-- `RD16 a`. -/
def Access.rd16 (a : Addr) : Access := .read a .two

/-- `RD32 a`. -/
def Access.rd32 (a : Addr) : Access := .read a .four

/-- `.word v`: `WR32 0x0000, v`. -/
def Access.word (v : Word) : Access := .write32 0x0000#16 v

/-- `<command>`: `WR32 0x0000, <word>`. For a command outside the limits of R91, which has no word and no
host line, the word is `encode`'s: DESIGN CHOICE, unsafe for such terms only: log 15. -/
def Access.command (i : Instr) : Access := Access.word (encode i)

/-- `SETLEN n`: `WR32 0x0014, n`. -/
def Access.setLen (n : Word) : Access := .write32 0x0014#16 n

/-- `RESULT`: `RD32 0x0004`. -/
def Access.result : Access := Access.rd32 0x0004#16

/-- `WRBYTES a, b0, b1, ...`: `WR8 a, b0` then `WR8 a+1, b1` and so on (R92). Past 0xFFFF, where a bus address
has no further value (20 R50), the addresses go on at 0x0000: DESIGN CHOICE, unsafe for such lines only:
log 16. -/
def Access.wrBytes (a : Addr) (bs : List Byte) : List Access :=
  match bs with
  | [] => []
  | b :: t => .write8 a b :: Access.wrBytes (a + 1#16) t

/-- Queue a host program behind the events already pending (20 R64). -/
def State.withProgram (s : State) (p : List Access) : State :=
  { s with pending := s.pending ++ p.map HostEvent.access }

end Sys2Proof.Machine
end

