-- ==== Sys2Proof/Safety.lean ====
section
/-! DEFINITION. What a legal state and a safe run are, in the terms the statements use: the legal values of
spec 10 R25, R26, R28, R29, the canonical form of the memories, and a step that ends in a next state. -/

namespace Sys2Proof.Machine

/-- The three memories are in canonical form (log 4). -/
structure State.Canonical (s : State) : Prop where
  /-- CANVAS lists no off pixel. -/
  canvas : Memory.wf .canvas s.canvas = true
  /-- PACK_BUF lists bytes of indices 0 to 1023. -/
  packBuf : Memory.wf .packBuf s.packBuf = true
  /-- RLE_BUF lists bytes of indices 0 to 2047. -/
  rleBuf : Memory.wf .rleBuf s.rleBuf = true

/-- Every pixel is LUM_ON or LUM_OFF (10 R25). -/
def State.TwoValued (s : State) : Prop :=
  ∀ x y, x < Config.W → y < Config.H →
    s.pixel x y = Config.LUM_ON ∨ s.pixel x y = Config.LUM_OFF

/-- The legal values of the registers: SIZE 1 to 10 (10 R26), VIEW fields not 0 (10 R28), CODE 0 to 5
(10 R29). STROKE and RLE_LEN have no illegal value of their width. -/
structure State.LegalRegisters (s : State) : Prop where
  /-- SIZE never holds 0. -/
  sizeMin : Config.SIZE_MIN ≤ s.brushSize.toNat
  /-- SIZE never holds a value above 10. -/
  sizeMax : s.brushSize.toNat ≤ Config.SIZE_MAX
  /-- VIEW_W never holds 0. -/
  viewW : s.viewW ≠ 0#14
  /-- VIEW_H never holds 0. -/
  viewH : s.viewH ≠ 0#14
  /-- CODE values 6 to 15 are never produced. -/
  code : s.resultCode.toNat ≤ 5

/-- The invariant of the machine: canonical memories, a two-valued canvas, legal registers. -/
structure State.Legal (s : State) : Prop where
  /-- canonical memories -/
  canonical : s.Canonical
  /-- a two-valued canvas -/
  twoValued : s.TwoValued
  /-- legal registers -/
  registers : s.LegalRegisters

/-- A step is safe if it ends in a next state: the block never traps or gets stuck (60 R214, 93 §2). -/
def SafeStep (s : State) : Prop := ∃ t, step s = .next t

/-- A run of `n` steps is safe if each of its steps ends in a next state. -/
def SafeRun (n : Nat) (s : State) : Prop := ∃ t, Sys2Proof.core.run n s = .next t

/-! ### Terms of the statements -/

/-- Pixel `(x, y)` lies in the brush square of the state centred at `c`, before the canvas edge cuts it
(41 R122). -/
def State.inSquare (s : State) (c : Point) (x y : Nat) : Prop :=
  c.x - s.brushSize.toNat / 2 ≤ x ∧ (x : Int) ≤ c.x - s.brushSize.toNat / 2 + s.brushSize.toNat - 1 ∧
  c.y - s.brushSize.toNat / 2 ≤ y ∧ (y : Int) ≤ c.y - s.brushSize.toNat / 2 + s.brushSize.toNat - 1

/-- A word the encoding reserves, in the words of 30 R89: its OP is 0xC to 0xF, or its OP selects format N, S
or M and a reserved bit of that format is 1. -/
def reservedWord (w : Word) : Prop :=
  0xC ≤ w.toNat / 2 ^ 28 ∨
  (w.toNat / 2 ^ 28 ∈ [0x0, 0x3, 0x4, 0x8, 0x9, 0xA, 0xB] ∧ w.toNat % 2 ^ 28 ≠ 0) ∨
  (w.toNat / 2 ^ 28 = 0x5 ∧ w.toNat / 2 ^ 8 % 2 ^ 20 ≠ 0) ∨
  (w.toNat / 2 ^ 28 = 0x6 ∧ w.toNat / 2 % 2 ^ 27 ≠ 0)

/-- The reserved addresses of the map (20 R51). -/
def reservedAddress (a : Nat) : Prop :=
  (0x0018 ≤ a ∧ a ≤ 0x0FFF) ∨ (0x1400 ≤ a ∧ a ≤ 0x1FFF) ∨ (0x2800 ≤ a ∧ a ≤ 0x3FFF) ∨
  (0x6000 ≤ a ∧ a ≤ 0xFFFF)

/-- The PACK_BUF and RLE_BUF windows (20 R53, R54). -/
def bufferAddress (a : Nat) : Prop := (0x1000 ≤ a ∧ a ≤ 0x13FF) ∨ (0x2000 ≤ a ∧ a ≤ 0x27FF)

/-- The CANVAS window (20 R55). -/
def canvasAddress (a : Nat) : Prop := 0x4000 ≤ a ∧ a ≤ 0x5FFF

/-- The run of pair `k` of a frame (43 R180). -/
def pairRun (f : List Byte) (k : Nat) : Nat := (f.getD (2 * k) 0#8).toNat

/-- The value of pair `k` of a frame (43 R180). -/
def pairValue (f : List Byte) (k : Nat) : Byte := f.getD (2 * k + 1) 0#8

/-- The bytes of a sequence of (run, value) pairs, run byte first (43 R180). -/
def pairBytes (ps : List (Byte × Byte)) : List Byte := ps.flatMap (fun p => [p.1, p.2])

/-- A canonical list of pairs: no run is 0, and a run below 255 is the last or is followed by a different
value (43 R183 item 4). -/
def canonicalPairs (ps : List (Byte × Byte)) : Prop :=
  (∀ p ∈ ps, p.1 ≠ 0#8) ∧ ps.IsChain (fun p q => p.1 = 255#8 ∨ p.2 ≠ q.2)

/-- The number of 1 bits of a byte. -/
def onesOf (b : Byte) : Nat := ((List.range 8).filter (fun j => b.getLsbD j)).length

end Sys2Proof.Machine
end

