-- ==== Sys2Proof/Certificates/Slice0/Obligations.lean ====
section
/-! DEFINITION. The statements for the provers. Each docstring names the rules of spec/ it formalises. -/

open Sys2Proof Sys2Proof.Machine

/-! ### Encoding (spec 30) -/

/-- R82 to R87, R91: decoding the word of a well-formed command gives the command back, for every operand
value the encoding admits. -/
def Obligations.DecodeOfEncodeIsTheCommand : Prop :=
  ∀ i : Instr, i.wellFormed = true → decode (encode i) = .ok i

/-- R80, R81, R87, R89: a word that decodes is the word of the command it decodes to, and that command's
operands are within their limits: no bit of a word is dropped. -/
def Obligations.EncodeOfDecodedWordIsTheWord : Prop :=
  ∀ (w : Word) (i : Instr), decode w = .ok i → i.wellFormed = true ∧ encode i = w

/-- R88: a word is the command of a row of the opcode map iff `(w & mask) = match`; the rows are disjoint; a
word matches a row iff it is not illegal. -/
def Obligations.OpcodeMapRowSelectsTheCommand : Prop :=
  (∀ (w : Word), ∀ r ∈ opcodeMap,
    (r.matchesWord w = true ↔ ∃ i, decode w = .ok i ∧ i.mnemonic = r.mnemonic)) ∧
  (∀ (w : Word), ∀ r ∈ opcodeMap, ∀ q ∈ opcodeMap,
    r.matchesWord w = true → q.matchesWord w = true → r = q) ∧
  (∀ w : Word, (∃ r ∈ opcodeMap, r.matchesWord w = true) ↔ illegalWord w = false)

/-- R89, R103: a word is illegal iff its OP is 0xC to 0xF or a reserved bit of format N, S or M is 1 (so no
BEGIN, EXTEND or SETVIEW word is); issuing it sets RESULT.CODE to ILLEGAL (1) and changes nothing else;
issuing any other word runs the command it decodes to. -/
def Obligations.ReservedWordsAreIllegalAndWriteOnlyResult : Prop :=
  ∀ (w : Word) (s : State),
    (reservedWord w → issueCommand w s = .next { s with resultCode := 1#4 }) ∧
    (¬ reservedWord w → ∃ i, decode w = .ok i ∧ issueCommand w s = exec i s) ∧
    (w.toNat / 2 ^ 28 ∈ [0x1, 0x2, 0x7] → ¬ reservedWord w)

/-- R83 to R88: words written out from the encoding tables decode to the commands they stand for. -/
def Obligations.WrittenOutWordsDecode : Prop :=
  decode 0x00000000#32 = .ok .nop ∧
  decode 0x10010003#32 = .ok (.beginStroke 3 4) ∧
  decode 0x17FFE000#32 = .ok (.beginStroke (-8192) 8191) ∧
  decode 0x204B3FFB#32 = .ok (.extendStroke (-5) 300) ∧
  decode 0x30000000#32 = .ok .endStroke ∧
  decode 0x500000C8#32 = .ok (.setSize 200) ∧
  decode 0x60000001#32 = .ok (.setMode .erase) ∧
  decode 0x7025812C#32 = .ok (.setView 300 150) ∧
  decode 0x90000000#32 = .ok .unpack ∧
  decode 0xB0000000#32 = .ok .decodeRle

/-! ### Issue, results and the whole machine (spec 40, 60) -/

/-- R63, R100, R101: when the next host event is a 32-bit write of a legal word to CMD, the step is `exec` of
the command the word decodes to, on the state with that event taken off the queue; and `withFetchWord` places
a word so. The queue is the model's own (log 1). -/
def Obligations.StepRunsTheDecodedCommand : Prop :=
  (∀ (s : State) (rest : List HostEvent) (w : Word) (i : Instr),
    s.pending = .access (.write32 0x0000#16 w) :: rest → decode w = .ok i →
    step s = exec i { s with pending := rest }) ∧
  (∀ (s : State) (w : Word) (i : Instr), decode w = .ok i → step (s.withFetchWord 32 w.toNat) = exec i s)

/-- R91, R92, R100: a well-formed command, written to CMD as the word the assembler gives it, runs as itself.
The queue is the model's own (log 1). -/
def Obligations.AssembledCommandRunsAsItself : Prop :=
  ∀ (s : State) (rest : List HostEvent) (i : Instr),
    s.pending = .access (Access.command i) :: rest → i.wellFormed = true →
    step s = exec i { s with pending := rest }

/-- R101, R103: when the next host event writes an illegal word to CMD, the step sets RESULT.CODE to ILLEGAL
and, but for taking the event off the queue, which is the model's own (log 1), changes nothing else. -/
def Obligations.StepOnReservedWordWritesOnlyResult : Prop :=
  ∀ (s : State) (rest : List HostEvent) (w : Word),
    s.pending = .access (.write32 0x0000#16 w) :: rest → reservedWord w →
    step s = .next { s with pending := rest, resultCode := 1#4 }

/-- R13, R101, R222: with no host event pending, the engine takes no step and all state persists. That such a
machine step answers the same state is the model's form of it (log 1). -/
def Obligations.IdleStepChangesNothing : Prop :=
  ∀ s : State, s.pending = [] → step s = .next s

/-- R102, R213, R214: no step traps, gets stuck or is refused, from any state, and so no run of any length does. -/
def Obligations.EveryStepAnswersNext : Prop :=
  (∀ s : State, SafeStep s) ∧ ∀ (n : Nat) (s : State), SafeRun n s

/-- R104: a command either completes with OK or fails, writing only RESULT.CODE; only DECODE fails with a code
other than ILLEGAL. -/
def Obligations.FailedCommandWritesOnlyResult : Prop :=
  ∀ (w : Word) (s : State), ∃ t, issueCommand w s = .next t ∧
    (t.resultCode = 0#4 ∨ t = { s with resultCode := t.resultCode }) ∧
    (t.resultCode ≠ 0#4 → t.resultCode ≠ 1#4 → decode w = .ok .decodeRle)

/-- R105: RESULT describes the most recent command only; the code an earlier command left affects nothing. -/
def Obligations.EarlierResultAffectsNoCommand : Prop :=
  ∀ (w : Word) (s : State) (c : BitVec 4),
    issueCommand w { s with resultCode := c } = issueCommand w s

/-- R106: NOP is the word 0 alone; it writes RESULT.CODE <- OK and nothing else; any nonzero word with OP 0 is
illegal. -/
def Obligations.NopWritesOnlyOk : Prop :=
  (∀ s : State, exec .nop s = .next { s with resultCode := 0#4 }) ∧
  (∀ w : Word, decode w = .ok .nop ↔ w = 0x00000000#32) ∧
  (∀ w : Word, opcodeOf w = 0x0#4 → w ≠ 0x00000000#32 → decode w = .error .reservedBits)

/-- R24: CANVAS is written by BEGIN, EXTEND, CLEAR and UNPACK only; the one other event that changes it is
reset. In particular no host access but a CMD write of one of these commands does. -/
def Obligations.OnlyFourCommandsWriteTheCanvas : Prop :=
  ∀ s t : State, step s = .next t → t.canvas ≠ s.canvas →
    (∃ rest w i, s.pending = .access (.write32 0x0000#16 w) :: rest ∧ decode w = .ok i ∧
      i.mnemonic ∈ ["BEGIN", "EXTEND", "CLEAR", "UNPACK"]) ∨
    (∃ cut rest, s.pending = .reset cut :: rest)

/-- R26 to R28, R30 to R32: which commands change each of the other pieces of state, and that none changes the
model's own fields. -/
def Obligations.CommandsChangeOnlyTheirOwnState : Prop :=
  ∀ (i : Instr) (s t : State), exec i s = .next t →
    (t.packBuf ≠ s.packBuf → i = .pack ∨ i = .decodeRle) ∧
    (t.rleBuf ≠ s.rleBuf → i = .encodeRle) ∧
    (t.rleLen ≠ s.rleLen → i = .encodeRle) ∧
    (t.brushSize ≠ s.brushSize → ∃ sz, i = .setSize sz) ∧
    (t.brushMode ≠ s.brushMode → ∃ md, i = .setMode md) ∧
    (t.viewW ≠ s.viewW ∨ t.viewH ≠ s.viewH → ∃ vw vh, i = .setView vw vh) ∧
    (t.strokeActive ≠ s.strokeActive → (∃ px py, i = .beginStroke px py) ∨ i = .endStroke) ∧
    (t.lastX ≠ s.lastX ∨ t.lastY ≠ s.lastY →
      ∃ px py, i = .beginStroke px py ∨ i = .extendStroke px py) ∧
    t.pending = s.pending ∧ t.busData = s.busData ∧ t.resets = s.resets

/-- R25, R26, R28, R29 (93 X3): every step keeps the machine legal: a two-valued canvas, SIZE in 1 to 10, VIEW
fields not 0, CODE in 0 to 5, and the canonical form of the three memories (log 4). -/
def Obligations.EveryStepKeepsTheMachineLegal : Prop :=
  ∀ s t : State, s.Legal → step s = .next t → t.Legal

/-- R231: the reset state is legal in the same sense. -/
def Obligations.ResetStateIsLegal : Prop := State.reset.Legal

/-! ### The Rasterizer (spec 41) -/

/-- R120: the mapped coordinates are the floors of the exact quotients, clamped to the canvas; with the reset
value of VIEW the mapping is the identity on the canvas. -/
def Obligations.MappedPointIsTheClampedFloor : Prop :=
  (∀ (s : State) (px py : Int), s.viewW ≠ 0#14 → s.viewH ≠ 0#14 →
    s.mapX px = max 0 (min 127 ⌊((px * 128 : Int) : ℚ) / (s.viewW.toNat : ℚ)⌋) ∧
    s.mapY py = max 0 (min 63 ⌊((py * 64 : Int) : ℚ) / (s.viewH.toNat : ℚ)⌋)) ∧
  (∀ (s : State) (px py : Int), s.viewW = 128#14 → s.viewH = 64#14 →
    0 ≤ px → px ≤ 127 → 0 ≤ py → py ≤ 63 → s.mapX px = px ∧ s.mapY py = py)

/-- R121: every mapped point is on the canvas, for every operand value, and no coordinate raises a code. -/
def Obligations.EveryMappedPointIsOnTheCanvas : Prop :=
  ∀ (s : State) (px py : Int),
    0 ≤ s.mapX px ∧ s.mapX px ≤ 127 ∧ 0 ≤ s.mapY py ∧ s.mapY py ≤ 63 ∧
    (∃ t, exec (.beginStroke px py) s = .next t ∧ t.resultCode = 0#4) ∧
    (∃ t, exec (.extendStroke px py) s = .next t ∧ t.resultCode = 0#4)

/-- R122, R135: on an axis of `n` positions, the span of a square of size at least 1 centred on the canvas stays
on the axis, contains its centre, has at most `size` positions, and exactly `size` when no edge cuts it. -/
def Obligations.SpanStaysOnTheAxisAndContainsItsCentre : Prop :=
  ∀ (c : Int) (size n : Nat), 0 ≤ c → c < n → 1 ≤ size →
    0 ≤ (span c size n).lo ∧ (span c size n).lo ≤ c ∧ c ≤ (span c size n).hi ∧ (span c size n).hi < n ∧
    (span c size n).count ≤ size ∧
    (0 ≤ c - size / 2 → c - size / 2 + size ≤ n → (span c size n).count = size)

/-- R128, with R123 and R124: BEGIN plots one brush square at the mapped point, of the value of the brush mode,
starts a stroke whose last point is that point, reports OK, and changes nothing else. Every word with OP 1 is
a BEGIN with sign-extended operands. -/
def Obligations.BeginPlotsOneSquareAndStartsAStroke : Prop :=
  (∀ w : Word, opcodeOf w = 0x1#4 →
    decode w = .ok (.beginStroke (w.extractLsb' 0 14).toInt (w.extractLsb' 14 14).toInt)) ∧
  (∀ (s : State) (px py : Int), ∃ t, exec (.beginStroke px py) s = .next t ∧
    (∀ x y : Nat, x < 128 → y < 64 →
      (s.inSquare ⟨s.mapX px, s.mapY py⟩ x y →
        t.pixel x y = if s.brushMode = .draw then 255#8 else 0#8) ∧
      (¬ s.inSquare ⟨s.mapX px, s.mapY py⟩ x y → t.pixel x y = s.pixel x y)) ∧
    t.strokeActive = true ∧ (t.lastX.toNat : Int) = s.mapX px ∧ (t.lastY.toNat : Int) = s.mapY py ∧
    t = { s with
      canvas := t.canvas, strokeActive := true, lastX := t.lastX, lastY := t.lastY, resultCode := 0#4 })

/-- R129, with R127: without a stroke, EXTEND changes nothing but RESULT; with one, it plots a brush square at
every point of the line from the last point to the mapped point, makes that point the last one, reports OK, and
changes nothing else. Every word with OP 2 is an EXTEND with sign-extended operands. -/
def Obligations.ExtendDrawsTheLineFromTheLastPoint : Prop :=
  (∀ w : Word, opcodeOf w = 0x2#4 →
    decode w = .ok (.extendStroke (w.extractLsb' 0 14).toInt (w.extractLsb' 14 14).toInt)) ∧
  (∀ (s : State) (px py : Int), s.strokeActive = false →
    exec (.extendStroke px py) s = .next { s with resultCode := 0#4 }) ∧
  (∀ (s : State) (px py : Int), s.strokeActive = true →
    ∃ t, exec (.extendStroke px py) s = .next t ∧
      (∀ x y : Nat, x < 128 → y < 64 →
        ((∃ p ∈ linePoints ⟨(s.lastX.toNat : Int), (s.lastY.toNat : Int)⟩ ⟨s.mapX px, s.mapY py⟩,
            s.inSquare p x y) →
          t.pixel x y = if s.brushMode = .draw then 255#8 else 0#8) ∧
        ((∀ p ∈ linePoints ⟨(s.lastX.toNat : Int), (s.lastY.toNat : Int)⟩ ⟨s.mapX px, s.mapY py⟩,
            ¬ s.inSquare p x y) →
          t.pixel x y = s.pixel x y)) ∧
      (t.lastX.toNat : Int) = s.mapX px ∧ (t.lastY.toNat : Int) = s.mapY py ∧
      t = { s with canvas := t.canvas, lastX := t.lastX, lastY := t.lastY, resultCode := 0#4 })

/-- R130: END is one word; it clears STROKE.ACTIVE, keeps the last point, reports OK, and changes nothing
else. -/
def Obligations.EndClearsActiveAndKeepsTheLastPoint : Prop :=
  (∀ s : State, exec .endStroke s = .next { s with strokeActive := false, resultCode := 0#4 }) ∧
  (∀ w : Word, decode w = .ok .endStroke ↔ w = 0x30000000#32) ∧
  (∀ w : Word, opcodeOf w = 0x3#4 → w ≠ 0x30000000#32 → decode w = .error .reservedBits)

/-- R131: CLEAR is one word; it turns every pixel off whatever the brush mode, reports OK, and changes nothing
else: a stroke stays as it was. -/
def Obligations.ClearTurnsEveryPixelOff : Prop :=
  (∀ s : State, ∃ t, exec .clear s = .next t ∧
    (∀ x y : Nat, x < 128 → y < 64 → t.pixel x y = 0#8) ∧
    t = { s with canvas := t.canvas, resultCode := 0#4 }) ∧
  (∀ w : Word, decode w = .ok .clear ↔ w = 0x40000000#32) ∧
  (∀ w : Word, opcodeOf w = 0x4#4 → w ≠ 0x40000000#32 → decode w = .error .reservedBits)

/-- R132: SETSIZE stores its zero-extended 8-bit operand clamped to 1 to 10, reports OK, and changes nothing
else; with a set reserved bit the word is illegal. -/
def Obligations.SetSizeStoresTheClampedSize : Prop :=
  (∀ (s : State) (sz : Nat),
    exec (.setSize sz) s =
      .next { s with brushSize := BitVec.ofNat 4 (max 1 (min 10 sz)), resultCode := 0#4 }) ∧
  (∀ w : Word, opcodeOf w = 0x5#4 → w.extractLsb' 8 20 = 0#20 →
    decode w = .ok (.setSize (w.extractLsb' 0 8).toNat)) ∧
  (∀ w : Word, opcodeOf w = 0x5#4 → w.extractLsb' 8 20 ≠ 0#20 → decode w = .error .reservedBits)

/-- R133: SETMODE stores its bit, 0 draw and 1 erase, reports OK, and changes nothing else; with a set reserved
bit the word is illegal. -/
def Obligations.SetModeStoresTheMode : Prop :=
  (∀ (s : State) (md : BrushMode),
    exec (.setMode md) s = .next { s with brushMode := md, resultCode := 0#4 }) ∧
  (∀ w : Word, opcodeOf w = 0x6#4 → w.extractLsb' 1 27 = 0#27 →
    decode w = .ok (.setMode (if w.getLsbD 0 then .erase else .draw))) ∧
  (∀ w : Word, opcodeOf w = 0x6#4 → w.extractLsb' 1 27 ≠ 0#27 → decode w = .error .reservedBits)

/-- R134: SETVIEW stores both fields, each corrected from 0 to 1, reports OK, and changes nothing else. Every
word with OP 7 is a SETVIEW with zero-extended operands. -/
def Obligations.SetViewStoresTheCorrectedFields : Prop :=
  (∀ (s : State) (vw vh : Nat), vw ≤ 16383 → vh ≤ 16383 →
    exec (.setView vw vh) s =
      .next { s with
        viewW := BitVec.ofNat 14 (max vw 1), viewH := BitVec.ofNat 14 (max vh 1),
        resultCode := 0#4 }) ∧
  (∀ w : Word, opcodeOf w = 0x7#4 →
    decode w = .ok (.setView (w.extractLsb' 0 14).toNat (w.extractLsb' 14 14).toNat))

/-- R126: a line is the same sequence in both directions; it runs from the smaller endpoint in canonical order to
the larger; it has `max(|dx|, |dy|) + 1` points, none twice; consecutive points differ by at most 1 in each
coordinate; every point lies in the bounding box; and over the canvas it has at most 128 points. -/
def Obligations.LineIsSymmetricConnectedAndExact : Prop :=
  ∀ a b : Point,
    linePoints a b = linePoints b a ∧
    (linePoints a b).head? = some (if b.precedes a then b else a) ∧
    (linePoints a b).getLast? = some (if b.precedes a then a else b) ∧
    (linePoints a b).length = max (b.x - a.x).natAbs (b.y - a.y).natAbs + 1 ∧
    (linePoints a b).Nodup ∧
    (linePoints a b).IsChain (fun p q =>
      (q.x - p.x).natAbs ≤ 1 ∧ (q.y - p.y).natAbs ≤ 1) ∧
    (∀ p ∈ linePoints a b,
      min a.x b.x ≤ p.x ∧ p.x ≤ max a.x b.x ∧ min a.y b.y ≤ p.y ∧ p.y ≤ max a.y b.y) ∧
    (0 ≤ a.x → a.x ≤ 127 → 0 ≤ b.x → b.x ≤ 127 → 0 ≤ a.y → a.y ≤ 63 → 0 ≤ b.y → b.y ≤ 63 →
      (linePoints a b).length ≤ 128)

/-- R125: every point of a line lies within half a pixel of the exact segment, along its minor axis: the stepping
is Bresenham's. -/
def Obligations.LinePointsStayWithinHalfAPixel : Prop :=
  ∀ a b p : Point, p ∈ linePoints a b →
    2 * ((p.x - a.x) * (b.y - a.y) - (p.y - a.y) * (b.x - a.x)).natAbs ≤
      max (b.x - a.x).natAbs (b.y - a.y).natAbs

/-- R136: `BEGIN A; EXTEND B` and `BEGIN B; EXTEND A` from one state leave the same CANVAS, and (when the
memories are canonical, so that equal memories are equal data) differ in nothing but STROKE.LAST, which ends at
B in the first and at A in the second. -/
def Obligations.StrokeSegmentIsDirectionIndependent : Prop :=
  ∀ (s : State) (px py qx qy : Int), ∃ t u t' u',
    exec (.beginStroke px py) s = .next t ∧ exec (.extendStroke qx qy) t = .next u ∧
    exec (.beginStroke qx qy) s = .next t' ∧ exec (.extendStroke px py) t' = .next u' ∧
    (∀ x y : Nat, x < 128 → y < 64 → u.pixel x y = u'.pixel x y) ∧
    (s.Canonical → u = { u' with lastX := u.lastX, lastY := u.lastY }) ∧
    u = { u' with canvas := u.canvas, lastX := u.lastX, lastY := u.lastY } ∧
    u.lastPoint = ⟨s.mapX qx, s.mapY qy⟩ ∧ u'.lastPoint = ⟨s.mapX px, s.mapY py⟩

/-! ### The Bit-Packer (spec 42) -/

/-- R160: the two directions of the pixel-to-bit mapping are inverse to each other. -/
def Obligations.PixelAndPackedBitMapToEachOther : Prop :=
  (∀ x y : Nat, x < 128 → y < 64 →
    packByteIndex x y < 1024 ∧ packBitIndex x < 8 ∧
    packColumn (packByteIndex x y) (packBitIndex x) = x ∧ packRow (packByteIndex x y) = y) ∧
  (∀ i b : Nat, i < 1024 → b < 8 →
    packColumn i b < 128 ∧ packRow i < 64 ∧
    packByteIndex (packColumn i b) (packRow i) = i ∧ packBitIndex (packColumn i b) = b)

/-- R162: PACK is one word; bit `b` of byte `i` of PACK_BUF becomes 1 iff the pixel
`((i mod 16) * 8 + b, i div 16)` is above 127, for all 1024 bytes; it reports OK and changes nothing else. -/
def Obligations.PackThresholdsEveryPixel : Prop :=
  (∀ s : State, ∃ t, exec .pack s = .next t ∧
    (∀ i b : Nat, i < 1024 → b < 8 →
      (t.readByte .packBuf i).getLsbD b = decide (127 < (s.pixel (i % 16 * 8 + b) (i / 16)).toNat)) ∧
    t = { s with packBuf := t.packBuf, resultCode := 0#4 }) ∧
  (∀ w : Word, decode w = .ok .pack ↔ w = 0x80000000#32) ∧
  (∀ w : Word, opcodeOf w = 0x8#4 → w ≠ 0x80000000#32 → decode w = .error .reservedBits)

/-- R163: UNPACK is one word; pixel `((i mod 16) * 8 + b, i div 16)` becomes 255 if bit `b` of byte `i` of PACK_BUF
is 1 and 0 if it is 0, for all 8192 pixels; it reports OK and changes nothing else. -/
def Obligations.UnpackLoadsEveryPixel : Prop :=
  (∀ s : State, ∃ t, exec .unpack s = .next t ∧
    (∀ i b : Nat, i < 1024 → b < 8 →
      t.pixel (i % 16 * 8 + b) (i / 16) =
        if (s.readByte .packBuf i).getLsbD b then 255#8 else 0#8) ∧
    t = { s with canvas := t.canvas, resultCode := 0#4 }) ∧
  (∀ w : Word, decode w = .ok .unpack ↔ w = 0x90000000#32) ∧
  (∀ w : Word, opcodeOf w = 0x9#4 → w ≠ 0x90000000#32 → decode w = .error .reservedBits)

/-- R164 item 2: `UNPACK; PACK` leaves every byte of PACK_BUF as it was. -/
def Obligations.PackAfterUnpackRestoresPackBuf : Prop :=
  ∀ s : State, ∃ t u, exec .unpack s = .next t ∧ exec .pack t = .next u ∧
    ∀ i < 1024, u.readByte .packBuf i = s.readByte .packBuf i

/-- R164 item 3: `PACK; UNPACK` leaves a two-valued CANVAS as it was. -/
def Obligations.UnpackAfterPackRestoresTheCanvas : Prop :=
  ∀ s : State, s.TwoValued → ∃ t u, exec .pack s = .next t ∧ exec .unpack t = .next u ∧
    (∀ x y : Nat, x < 128 → y < 64 → u.pixel x y = s.pixel x y) ∧
    (s.Canonical → u.canvas = s.canvas)

/-- R164 items 1 and 4: PACK is a function of the pixels alone, and after it PACK_BUF has as many 1 bits as a
two-valued CANVAS has on pixels. -/
def Obligations.PackCountsTheOnPixels : Prop :=
  (∀ s s' : State, (∀ x y : Nat, x < 128 → y < 64 → s.pixel x y = s'.pixel x y) →
    ∃ t t', exec .pack s = .next t ∧ exec .pack s' = .next t' ∧
      ∀ i < 1024, t.readByte .packBuf i = t'.readByte .packBuf i) ∧
  (∀ s : State, s.TwoValued → ∃ t, exec .pack s = .next t ∧
    ((List.range 1024).map (fun i => onesOf (t.readByte .packBuf i))).sum =
      ((List.range 8192).filter (fun e => s.isOn (e % 128) (e / 128))).length)

/-! ### The Run-Length Codec (spec 43) -/

/-- R182: ENCODE is one word; it writes the frame of PACK_BUF to RLE_BUF from byte 0 and its length to
RLE_LEN, keeps the bytes of RLE_BUF beyond the frame, reports OK, and changes nothing else. -/
def Obligations.EncodeWritesTheFrameAndItsLength : Prop :=
  (∀ s : State, ∃ t, exec .encodeRle s = .next t ∧
    10 ≤ (rlEncode (s.readBytes .packBuf 1024)).length ∧
    (rlEncode (s.readBytes .packBuf 1024)).length ≤ 2048 ∧
    t.rleLen.toNat = (rlEncode (s.readBytes .packBuf 1024)).length ∧
    (∀ j < t.rleLen.toNat,
      t.readByte .rleBuf j = (rlEncode (s.readBytes .packBuf 1024)).getD j 0#8) ∧
    (∀ j, t.rleLen.toNat ≤ j → t.readByte .rleBuf j = s.readByte .rleBuf j) ∧
    t = { s with rleBuf := t.rleBuf, rleLen := t.rleLen, resultCode := 0#4 }) ∧
  (∀ w : Word, decode w = .ok .encodeRle ↔ w = 0xA0000000#32) ∧
  (∀ w : Word, opcodeOf w = 0xA#4 → w ≠ 0xA0000000#32 → decode w = .error .reservedBits)

/-- R183: the frame of any 1024 bytes has runs 1 to 255 that sum to 1024, an even length from 10 to 2048, 10 for
uniform bytes and 2048 when no two neighbours are equal, and a run below 255 is the last or is followed by a
different value. -/
def Obligations.EncodedFramesAreCanonical : Prop :=
  ∀ bs : List Byte, bs.length = 1024 →
    (∀ k < (rlEncode bs).length / 2, 1 ≤ pairRun (rlEncode bs) k ∧ pairRun (rlEncode bs) k ≤ 255) ∧
    ((List.range ((rlEncode bs).length / 2)).map (pairRun (rlEncode bs))).sum = 1024 ∧
    (rlEncode bs).length % 2 = 0 ∧ 10 ≤ (rlEncode bs).length ∧ (rlEncode bs).length ≤ 2048 ∧
    ((∀ i < 1023, bs.getD i 0#8 = bs.getD (i + 1) 0#8) → (rlEncode bs).length = 10) ∧
    ((∀ i < 1023, bs.getD i 0#8 ≠ bs.getD (i + 1) 0#8) → (rlEncode bs).length = 2048) ∧
    (∀ k, k + 1 < (rlEncode bs).length / 2 → pairRun (rlEncode bs) k < 255 →
      pairValue (rlEncode bs) k ≠ pairValue (rlEncode bs) (k + 1))

/-- R181: a run of `n` equal bytes becomes `floor(n/255)` pairs of run 255 and, if it is not 0, one pair of run
`n mod 255`, all with the byte's value. -/
def Obligations.LongRunsSplitIntoPairsOf255 : Prop :=
  ∀ (n : Nat) (v : Byte),
    rlEncode (List.replicate n v) =
      (List.replicate (n / 255) [255#8, v]).flatten ++
        (if n % 255 = 0 then [] else [BitVec.ofNat 8 (n % 255), v])

/-- R181, R184: expanding the frame of a byte sequence gives the sequence back, at every length. -/
def Obligations.ExpandUndoesEncode : Prop :=
  ∀ bs : List Byte, rlExpand (rlEncode bs) = bs

/-- R183 item 4, R187: encoding the expansion of a canonical frame gives the frame back. -/
def Obligations.EncodeUndoesExpandOnCanonicalFrames : Prop :=
  ∀ ps : List (Byte × Byte), canonicalPairs ps → rlEncode (rlExpand (pairBytes ps)) = pairBytes ps

/-- R185: validation returns the first code that applies, in the order too long, odd, zero run, wrong sum; a
frame of length 0 reports RLE_LENGTH. -/
def Obligations.ValidateReturnsTheFirstCodeThatApplies : Prop :=
  ∀ (s : State) (n : Nat),
    (2048 < n → s.validate n = .rleTooLong) ∧
    (n ≤ 2048 → n % 2 = 1 → s.validate n = .rleOdd) ∧
    (n ≤ 2048 → n % 2 = 0 → (∃ k < n / 2, s.readByte .rleBuf (2 * k) = 0#8) →
      s.validate n = .rleZeroRun) ∧
    (n ≤ 2048 → n % 2 = 0 → (∀ k < n / 2, s.readByte .rleBuf (2 * k) ≠ 0#8) →
      ((List.range (n / 2)).map (fun k => (s.readByte .rleBuf (2 * k)).toNat)).sum ≠ 1024 →
      s.validate n = .rleLength) ∧
    (n ≤ 2048 → n % 2 = 0 → (∀ k < n / 2, s.readByte .rleBuf (2 * k) ≠ 0#8) →
      ((List.range (n / 2)).map (fun k => (s.readByte .rleBuf (2 * k)).toNat)).sum = 1024 →
      s.validate n = .ok) ∧
    s.validate 0 = .rleLength

/-- R186: DECODE is one word. With `n = RLE_LEN.LEN`: if `n` is even and at most 2048, no run byte is 0 and the
runs sum to 1024, PACK_BUF becomes the expansion, pair by pair and all 1024 bytes, RESULT is OK, and nothing
else changes; if not, RESULT is the code of the first check that fails, in the order of R185, and nothing else
changes. -/
def Obligations.DecodeExpandsOrReportsOneCode : Prop :=
  (∀ s : State, s.rleLen.toNat ≤ 2048 → s.rleLen.toNat % 2 = 0 →
    (∀ k < s.rleLen.toNat / 2, s.readByte .rleBuf (2 * k) ≠ 0#8) →
    ((List.range (s.rleLen.toNat / 2)).map (fun k => (s.readByte .rleBuf (2 * k)).toNat)).sum = 1024 →
    ∃ t, exec .decodeRle s = .next t ∧
      (∀ k j : Nat, k < s.rleLen.toNat / 2 →
        ((List.range k).map (fun m => (s.readByte .rleBuf (2 * m)).toNat)).sum ≤ j →
        j < ((List.range (k + 1)).map (fun m => (s.readByte .rleBuf (2 * m)).toNat)).sum →
        j < 1024 ∧ t.readByte .packBuf j = s.readByte .rleBuf (2 * k + 1)) ∧
      t = { s with packBuf := t.packBuf, resultCode := 0#4 }) ∧
  (∀ s : State,
    (2048 < s.rleLen.toNat → exec .decodeRle s = .next { s with resultCode := 2#4 }) ∧
    (s.rleLen.toNat ≤ 2048 → s.rleLen.toNat % 2 = 1 →
      exec .decodeRle s = .next { s with resultCode := 3#4 }) ∧
    (s.rleLen.toNat ≤ 2048 → s.rleLen.toNat % 2 = 0 →
      (∃ k < s.rleLen.toNat / 2, s.readByte .rleBuf (2 * k) = 0#8) →
      exec .decodeRle s = .next { s with resultCode := 4#4 }) ∧
    (s.rleLen.toNat ≤ 2048 → s.rleLen.toNat % 2 = 0 →
      (∀ k < s.rleLen.toNat / 2, s.readByte .rleBuf (2 * k) ≠ 0#8) →
      ((List.range (s.rleLen.toNat / 2)).map (fun k => (s.readByte .rleBuf (2 * k)).toNat)).sum ≠ 1024 →
      exec .decodeRle s = .next { s with resultCode := 5#4 })) ∧
  (∀ w : Word, decode w = .ok .decodeRle ↔ w = 0xB0000000#32) ∧
  (∀ w : Word, opcodeOf w = 0xB#4 → w ≠ 0xB0000000#32 → decode w = .error .reservedBits)

/-- R187: for every PACK_BUF content, `ENCODE; DECODE` completes with OK and leaves PACK_BUF as it was; the
DECODE changes nothing else. -/
def Obligations.DecodeAfterEncodeRestoresPackBuf : Prop :=
  ∀ s : State, ∃ t u, exec .encodeRle s = .next t ∧ exec .decodeRle t = .next u ∧
    u.resultCode = 0#4 ∧ (∀ i < 1024, u.readByte .packBuf i = s.readByte .packBuf i) ∧
    u = { t with packBuf := u.packBuf }

/-! ### The host bus (spec 20) -/

/-- R57, R60: an aligned read above register space is the little-endian value of its bytes, zero-extended. -/
def Obligations.WindowReadsAreLittleEndian : Prop :=
  ∀ (s : State) (a : Addr), 0x1000 ≤ a.toNat →
    (s.memRead a .one).toNat = (s.byteAt a.toNat).toNat ∧
    (a.toNat % 2 = 0 → (s.memRead a .two).toNat =
      (s.byteAt a.toNat).toNat + 2 ^ 8 * (s.byteAt (a.toNat + 1)).toNat) ∧
    (a.toNat % 4 = 0 → (s.memRead a .four).toNat =
      (s.byteAt a.toNat).toNat + 2 ^ 8 * (s.byteAt (a.toNat + 1)).toNat +
        2 ^ 16 * (s.byteAt (a.toNat + 2)).toNat + 2 ^ 24 * (s.byteAt (a.toNat + 3)).toNat)

/-- R23, R26 to R29, R32, R33, R60: the register words, field by field, with every reserved field and CMD
reading 0. -/
def Obligations.RegisterReadsGiveTheirFields : Prop :=
  ∀ s : State,
    (s.memRead 0x0000#16 .four).toNat = 0 ∧
    (s.memRead 0x0004#16 .four).toNat = s.resultCode.toNat ∧
    (s.memRead 0x0008#16 .four).toNat =
      s.brushSize.toNat + 2 ^ 8 * (if s.brushMode = .erase then 1 else 0) ∧
    (s.memRead 0x000C#16 .four).toNat =
      (if s.strokeActive then 1 else 0) + 2 ^ 8 * s.lastX.toNat + 2 ^ 16 * s.lastY.toNat ∧
    (s.memRead 0x0010#16 .four).toNat = s.viewW.toNat + 2 ^ 16 * s.viewH.toNat ∧
    (s.memRead 0x0014#16 .four).toNat = s.rleLen.toNat

/-- R58: a misaligned 2-byte or 4-byte read returns 0 and a misaligned write is ignored, in every region. -/
def Obligations.MisalignedAccessReadsZeroAndWritesNothing : Prop :=
  ∀ (s : State) (a : Addr) (v : Word),
    (a.toNat % 2 ≠ 0 → s.memRead a .two = 0#32 ∧ memWrite a .two v s = .next s) ∧
    (a.toNat % 4 ≠ 0 → s.memRead a .four = 0#32 ∧ memWrite a .four v s = .next s)

/-- R52, R33: a 1-byte or 2-byte access to register space reads 0 or is ignored, so it issues no command; a
32-bit write to RLE_LEN sets LEN to its low 12 bits; one to any other register but CMD is ignored; one to CMD
issues the command. -/
def Obligations.RegisterSpaceTakesOnlyWordAccesses : Prop :=
  ∀ (s : State) (a : Addr) (v : Word), a.toNat < 0x1000 →
    s.memRead a .one = 0#32 ∧ s.memRead a .two = 0#32 ∧
    memWrite a .one v s = .next s ∧ memWrite a .two v s = .next s ∧
    (a = 0x0014#16 → memWrite a .four v s = .next { s with rleLen := BitVec.ofNat 12 v.toNat }) ∧
    (a ≠ 0x0000#16 → a ≠ 0x0014#16 → memWrite a .four v s = .next s) ∧
    (a = 0x0000#16 → memWrite a .four v s = issueCommand v s)

/-- R55: byte `0x4000 + y*128 + x` of the CANVAS window reads as pixel `(x, y)`, and every host write to the
window is ignored. -/
def Obligations.CanvasWindowIsReadOnly : Prop :=
  (∀ (s : State) (x y : Nat), x < 128 → y < 64 →
    s.memRead (BitVec.ofNat 16 (0x4000 + y * 128 + x)) .one = (s.pixel x y).setWidth 32) ∧
  (∀ (s : State) (a : Addr) (n : AccessSize) (v : Word), canvasAddress a.toNat →
    memWrite a n v s = .next s)

/-- R51, R56: a reserved address reads 0 and ignores writes, at every size. -/
def Obligations.ReservedAddressesReadZeroAndIgnoreWrites : Prop :=
  ∀ (s : State) (a : Addr) (n : AccessSize) (v : Word), reservedAddress a.toNat →
    s.memRead a n = 0#32 ∧ memWrite a n v s = .next s

/-- R53, R54, R57, R61: in every state host address `0x1000 + i` is PACK_BUF[i] and `0x2000 + i` is RLE_BUF[i],
the bytes the commands read; an aligned write to a buffer window stores its bytes in little-endian order at its
own addresses, and changes no other byte the bus can read and nothing outside the two buffers. That a value past
R61's limit counts by its low bits is the model's (log 17). -/
def Obligations.BufferWriteStoresItsBytesAndNothingElse : Prop :=
  (∀ (s : State) (i : Nat), i < 1024 → s.byteAt (0x1000 + i) = s.readByte .packBuf i) ∧
  (∀ (s : State) (i : Nat), i < 2048 → s.byteAt (0x2000 + i) = s.readByte .rleBuf i) ∧
  (∀ (s : State) (a : Addr) (n : AccessSize) (v : Word), bufferAddress a.toNat → aligned a n = true →
    ∃ t, memWrite a n v s = .next t ∧
      (∀ k < n.bytes, t.byteAt (a.toNat + k) = v.extractLsb' (8 * k) 8) ∧
      (∀ b : Nat, b < a.toNat ∨ a.toNat + n.bytes ≤ b → t.byteAt b = s.byteAt b) ∧
      t = { s with packBuf := t.packBuf, rleBuf := t.rleBuf })

/-- R59, R64: a read after a write of the same size at the same buffer address returns the value written, and
writing it again changes nothing that can be read. That a
value past R61's limit counts by its low bits is the model's (log 17). -/
def Obligations.BufferReadReturnsTheValueWritten : Prop :=
  ∀ (s : State) (a : Addr) (n : AccessSize) (v : Word), bufferAddress a.toNat → aligned a n = true →
    ∃ t u, memWrite a n v s = .next t ∧ memWrite a n v t = .next u ∧
      (t.memRead a n).toNat = v.toNat % 2 ^ (8 * n.bytes) ∧
      ∀ b : Nat, u.byteAt b = t.byteAt b

/-- R53, R54, R63, R64, R92: running the accesses of `WRBYTES a, b0, b1, ...`, one step each, stores the bytes at
consecutive addresses of a buffer window in order, and changes no other byte the bus can read, no register and
none of the host's later events. The queue is the model's own (log 1). -/
def Obligations.WrBytesStoresTheSequence : Prop :=
  ∀ (s : State) (rest : List HostEvent) (a : Addr) (bs : List Byte),
    s.pending = (Access.wrBytes a bs).map HostEvent.access ++ rest →
    (0x1000 ≤ a.toNat ∧ a.toNat + bs.length ≤ 0x1400) ∨ (0x2000 ≤ a.toNat ∧ a.toNat + bs.length ≤ 0x2800) →
    ∃ t, Sys2Proof.core.run bs.length s = .next t ∧
      (∀ j < bs.length, t.byteAt (a.toNat + j) = bs.getD j 0#8) ∧
      (∀ b : Nat, b < a.toNat ∨ a.toNat + bs.length ≤ b → t.byteAt b = s.byteAt b) ∧
      t = { s with packBuf := t.packBuf, rleBuf := t.rleBuf, pending := rest }

/-- R59, R63: a host read has no side effect: the step takes the read off the queue, puts the value on the bus,
and changes nothing else. The queue and the bus value are the model's own (logs 1, 5). -/
def Obligations.HostReadChangesNothing : Prop :=
  ∀ (s : State) (rest : List HostEvent) (a : Addr) (n : AccessSize),
    s.pending = .access (.read a n) :: rest →
    step s = .next { s with pending := rest, busData := s.memRead a n }

/-- R61, R63, R92: a host write of any size at any address is one `MemWrite` of that size, address and value: when
it is the next host event, the step is that `MemWrite` on the state with the event taken off the queue. The queue
is the model's own (log 1). -/
def Obligations.HostWriteIsOneMemWriteOfItsSize : Prop :=
  (∀ (s : State) (rest : List HostEvent) (a : Addr) (v : Byte),
    s.pending = .access (.write8 a v) :: rest →
    step s = memWrite a .one (BitVec.ofNat 32 v.toNat) { s with pending := rest }) ∧
  (∀ (s : State) (rest : List HostEvent) (a : Addr) (v : Half),
    s.pending = .access (.write16 a v) :: rest →
    step s = memWrite a .two (BitVec.ofNat 32 v.toNat) { s with pending := rest }) ∧
  (∀ (s : State) (rest : List HostEvent) (a : Addr) (v : Word),
    s.pending = .access (.write32 a v) :: rest →
    step s = memWrite a .four v { s with pending := rest })

/-! ### Reset (spec 70) -/

/-- R230, R231: asserting reset gives every register its reset value, turns every pixel off, and gives the two
buffers fresh unspecified parameters; a held write has no effect, and a held read returns an unspecified value.
The rest is the model's choice: the form of the parameters (logs 2, 3) and of the held read's value, on the bus
field (logs 5, 6); and the clauses that the host's later events are still pending and that the last read value
stays when no read was held (DEDUCED, log 7, over the model's own fields of logs 1 and 5). -/
def Obligations.ResetRestoresTheResetState : Prop :=
  ∀ (s : State) (cut : Option Access) (rest : List HostEvent), s.pending = .reset cut :: rest →
    ∃ t, step s = .next t ∧
      (∀ x y : Nat, x < 128 → y < 64 → t.pixel x y = 0#8) ∧
      t.memRead 0x0004#16 .four = 0x00000000#32 ∧ t.memRead 0x0008#16 .four = 0x00000001#32 ∧
      t.memRead 0x000C#16 .four = 0x00000000#32 ∧ t.memRead 0x0010#16 .four = 0x00400080#32 ∧
      t.memRead 0x0014#16 .four = 0x00000000#32 ∧
      (∀ i < 1024, t.readByte .packBuf i = Config.packBufInit (s.resets + 1) i) ∧
      (∀ i < 2048, t.readByte .rleBuf i = Config.rleBufInit (s.resets + 1) i) ∧
      t.resets = s.resets + 1 ∧ t.pending = rest ∧
      ((∀ a n, cut ≠ some (.read a n)) → t.busData = s.busData) ∧
      (∀ a n, cut = some (.read a n) → t.busData.toNat < 2 ^ (8 * n.bytes))

/-- R231: what the host reads right after reset: the registers, a blank canvas, and the two parameters of whatever
reset number the state holds (their form is the model's: logs 2, 3). -/
def Obligations.ResetStateReadsAsTheSpecSays : Prop :=
  State.reset.memRead 0x0004#16 .four = 0x00000000#32 ∧
  State.reset.memRead 0x0008#16 .four = 0x00000001#32 ∧
  State.reset.memRead 0x000C#16 .four = 0x00000000#32 ∧
  State.reset.memRead 0x0010#16 .four = 0x00400080#32 ∧
  State.reset.memRead 0x0014#16 .four = 0x00000000#32 ∧
  (∀ x y : Nat, x < 128 → y < 64 → State.reset.pixel x y = 0#8) ∧
  (∀ i < 1024, State.reset.byteAt (0x1000 + i) = Config.packBufInit State.reset.resets i) ∧
  (∀ i < 2048, State.reset.byteAt (0x2000 + i) = Config.rleBufInit State.reset.resets i)
end

