-- ==== Sys2Proof/Laws/State.lean ====
section
/-! SUPPORT. One lemma per field per update of the state, so that no proof unfolds a record update. -/

namespace Sys2Proof.Machine

/-! ### RESULT -/
@[simp] theorem State.setResult_canvas (s : State) (c : ResultCode) : (s.setResult c).canvas = s.canvas := rfl
@[simp] theorem State.setResult_packBuf (s : State) (c : ResultCode) : (s.setResult c).packBuf = s.packBuf := rfl
@[simp] theorem State.setResult_rleBuf (s : State) (c : ResultCode) : (s.setResult c).rleBuf = s.rleBuf := rfl
@[simp] theorem State.setResult_brushSize (s : State) (c : ResultCode) : (s.setResult c).brushSize = s.brushSize := rfl
@[simp] theorem State.setResult_brushMode (s : State) (c : ResultCode) : (s.setResult c).brushMode = s.brushMode := rfl
@[simp] theorem State.setResult_strokeActive (s : State) (c : ResultCode) : (s.setResult c).strokeActive = s.strokeActive := rfl
@[simp] theorem State.setResult_lastX (s : State) (c : ResultCode) : (s.setResult c).lastX = s.lastX := rfl
@[simp] theorem State.setResult_lastY (s : State) (c : ResultCode) : (s.setResult c).lastY = s.lastY := rfl
@[simp] theorem State.setResult_viewW (s : State) (c : ResultCode) : (s.setResult c).viewW = s.viewW := rfl
@[simp] theorem State.setResult_viewH (s : State) (c : ResultCode) : (s.setResult c).viewH = s.viewH := rfl
@[simp] theorem State.setResult_resultCode (s : State) (c : ResultCode) : (s.setResult c).resultCode = c.code := rfl
@[simp] theorem State.setResult_rleLen (s : State) (c : ResultCode) : (s.setResult c).rleLen = s.rleLen := rfl
@[simp] theorem State.setResult_pending (s : State) (c : ResultCode) : (s.setResult c).pending = s.pending := rfl
@[simp] theorem State.setResult_busData (s : State) (c : ResultCode) : (s.setResult c).busData = s.busData := rfl
@[simp] theorem State.setResult_resets (s : State) (c : ResultCode) : (s.setResult c).resets = s.resets := rfl

@[simp] theorem State.complete_canvas (s : State) : (s.complete).canvas = s.canvas := rfl
@[simp] theorem State.complete_packBuf (s : State) : (s.complete).packBuf = s.packBuf := rfl
@[simp] theorem State.complete_rleBuf (s : State) : (s.complete).rleBuf = s.rleBuf := rfl
@[simp] theorem State.complete_brushSize (s : State) : (s.complete).brushSize = s.brushSize := rfl
@[simp] theorem State.complete_brushMode (s : State) : (s.complete).brushMode = s.brushMode := rfl
@[simp] theorem State.complete_strokeActive (s : State) : (s.complete).strokeActive = s.strokeActive := rfl
@[simp] theorem State.complete_lastX (s : State) : (s.complete).lastX = s.lastX := rfl
@[simp] theorem State.complete_lastY (s : State) : (s.complete).lastY = s.lastY := rfl
@[simp] theorem State.complete_viewW (s : State) : (s.complete).viewW = s.viewW := rfl
@[simp] theorem State.complete_viewH (s : State) : (s.complete).viewH = s.viewH := rfl
@[simp] theorem State.complete_resultCode (s : State) : (s.complete).resultCode = 0#4 := rfl
@[simp] theorem State.complete_rleLen (s : State) : (s.complete).rleLen = s.rleLen := rfl
@[simp] theorem State.complete_pending (s : State) : (s.complete).pending = s.pending := rfl
@[simp] theorem State.complete_busData (s : State) : (s.complete).busData = s.busData := rfl
@[simp] theorem State.complete_resets (s : State) : (s.complete).resets = s.resets := rfl

@[simp] theorem State.raise_canvas (s : State) (c : ResultCode) : (s.raise c).canvas = s.canvas := rfl
@[simp] theorem State.raise_packBuf (s : State) (c : ResultCode) : (s.raise c).packBuf = s.packBuf := rfl
@[simp] theorem State.raise_rleBuf (s : State) (c : ResultCode) : (s.raise c).rleBuf = s.rleBuf := rfl
@[simp] theorem State.raise_brushSize (s : State) (c : ResultCode) : (s.raise c).brushSize = s.brushSize := rfl
@[simp] theorem State.raise_brushMode (s : State) (c : ResultCode) : (s.raise c).brushMode = s.brushMode := rfl
@[simp] theorem State.raise_strokeActive (s : State) (c : ResultCode) : (s.raise c).strokeActive = s.strokeActive := rfl
@[simp] theorem State.raise_lastX (s : State) (c : ResultCode) : (s.raise c).lastX = s.lastX := rfl
@[simp] theorem State.raise_lastY (s : State) (c : ResultCode) : (s.raise c).lastY = s.lastY := rfl
@[simp] theorem State.raise_viewW (s : State) (c : ResultCode) : (s.raise c).viewW = s.viewW := rfl
@[simp] theorem State.raise_viewH (s : State) (c : ResultCode) : (s.raise c).viewH = s.viewH := rfl
@[simp] theorem State.raise_resultCode (s : State) (c : ResultCode) : (s.raise c).resultCode = c.code := rfl
@[simp] theorem State.raise_rleLen (s : State) (c : ResultCode) : (s.raise c).rleLen = s.rleLen := rfl
@[simp] theorem State.raise_pending (s : State) (c : ResultCode) : (s.raise c).pending = s.pending := rfl
@[simp] theorem State.raise_busData (s : State) (c : ResultCode) : (s.raise c).busData = s.busData := rfl
@[simp] theorem State.raise_resets (s : State) (c : ResultCode) : (s.raise c).resets = s.resets := rfl

/-! ### STROKE -/

@[simp] theorem State.setActive_canvas (s : State) (b : Bool) : (s.setActive b).canvas = s.canvas := rfl
@[simp] theorem State.setActive_packBuf (s : State) (b : Bool) : (s.setActive b).packBuf = s.packBuf := rfl
@[simp] theorem State.setActive_rleBuf (s : State) (b : Bool) : (s.setActive b).rleBuf = s.rleBuf := rfl
@[simp] theorem State.setActive_brushSize (s : State) (b : Bool) : (s.setActive b).brushSize = s.brushSize := rfl
@[simp] theorem State.setActive_brushMode (s : State) (b : Bool) : (s.setActive b).brushMode = s.brushMode := rfl
@[simp] theorem State.setActive_strokeActive (s : State) (b : Bool) : (s.setActive b).strokeActive = b := rfl
@[simp] theorem State.setActive_lastX (s : State) (b : Bool) : (s.setActive b).lastX = s.lastX := rfl
@[simp] theorem State.setActive_lastY (s : State) (b : Bool) : (s.setActive b).lastY = s.lastY := rfl
@[simp] theorem State.setActive_viewW (s : State) (b : Bool) : (s.setActive b).viewW = s.viewW := rfl
@[simp] theorem State.setActive_viewH (s : State) (b : Bool) : (s.setActive b).viewH = s.viewH := rfl
@[simp] theorem State.setActive_resultCode (s : State) (b : Bool) : (s.setActive b).resultCode = s.resultCode := rfl
@[simp] theorem State.setActive_rleLen (s : State) (b : Bool) : (s.setActive b).rleLen = s.rleLen := rfl
@[simp] theorem State.setActive_pending (s : State) (b : Bool) : (s.setActive b).pending = s.pending := rfl
@[simp] theorem State.setActive_busData (s : State) (b : Bool) : (s.setActive b).busData = s.busData := rfl
@[simp] theorem State.setActive_resets (s : State) (b : Bool) : (s.setActive b).resets = s.resets := rfl

@[simp] theorem State.setLast_canvas (s : State) (p : Point) : (s.setLast p).canvas = s.canvas := rfl
@[simp] theorem State.setLast_packBuf (s : State) (p : Point) : (s.setLast p).packBuf = s.packBuf := rfl
@[simp] theorem State.setLast_rleBuf (s : State) (p : Point) : (s.setLast p).rleBuf = s.rleBuf := rfl
@[simp] theorem State.setLast_brushSize (s : State) (p : Point) : (s.setLast p).brushSize = s.brushSize := rfl
@[simp] theorem State.setLast_brushMode (s : State) (p : Point) : (s.setLast p).brushMode = s.brushMode := rfl
@[simp] theorem State.setLast_strokeActive (s : State) (p : Point) : (s.setLast p).strokeActive = s.strokeActive := rfl
@[simp] theorem State.setLast_lastX (s : State) (p : Point) : (s.setLast p).lastX = BitVec.ofInt 7 p.x := rfl
@[simp] theorem State.setLast_lastY (s : State) (p : Point) : (s.setLast p).lastY = BitVec.ofInt 6 p.y := rfl
@[simp] theorem State.setLast_viewW (s : State) (p : Point) : (s.setLast p).viewW = s.viewW := rfl
@[simp] theorem State.setLast_viewH (s : State) (p : Point) : (s.setLast p).viewH = s.viewH := rfl
@[simp] theorem State.setLast_resultCode (s : State) (p : Point) : (s.setLast p).resultCode = s.resultCode := rfl
@[simp] theorem State.setLast_rleLen (s : State) (p : Point) : (s.setLast p).rleLen = s.rleLen := rfl
@[simp] theorem State.setLast_pending (s : State) (p : Point) : (s.setLast p).pending = s.pending := rfl
@[simp] theorem State.setLast_busData (s : State) (p : Point) : (s.setLast p).busData = s.busData := rfl
@[simp] theorem State.setLast_resets (s : State) (p : Point) : (s.setLast p).resets = s.resets := rfl

/-! ### The memories -/

@[simp] theorem State.setBank_brushSize (s : State) (k : Bank) (m : Memory) : (s.setBank k m).brushSize = s.brushSize := by cases k <;> rfl
@[simp] theorem State.setBank_brushMode (s : State) (k : Bank) (m : Memory) : (s.setBank k m).brushMode = s.brushMode := by cases k <;> rfl
@[simp] theorem State.setBank_strokeActive (s : State) (k : Bank) (m : Memory) : (s.setBank k m).strokeActive = s.strokeActive := by cases k <;> rfl
@[simp] theorem State.setBank_lastX (s : State) (k : Bank) (m : Memory) : (s.setBank k m).lastX = s.lastX := by cases k <;> rfl
@[simp] theorem State.setBank_lastY (s : State) (k : Bank) (m : Memory) : (s.setBank k m).lastY = s.lastY := by cases k <;> rfl
@[simp] theorem State.setBank_viewW (s : State) (k : Bank) (m : Memory) : (s.setBank k m).viewW = s.viewW := by cases k <;> rfl
@[simp] theorem State.setBank_viewH (s : State) (k : Bank) (m : Memory) : (s.setBank k m).viewH = s.viewH := by cases k <;> rfl
@[simp] theorem State.setBank_resultCode (s : State) (k : Bank) (m : Memory) : (s.setBank k m).resultCode = s.resultCode := by cases k <;> rfl
@[simp] theorem State.setBank_rleLen (s : State) (k : Bank) (m : Memory) : (s.setBank k m).rleLen = s.rleLen := by cases k <;> rfl
@[simp] theorem State.setBank_pending (s : State) (k : Bank) (m : Memory) : (s.setBank k m).pending = s.pending := by cases k <;> rfl
@[simp] theorem State.setBank_busData (s : State) (k : Bank) (m : Memory) : (s.setBank k m).busData = s.busData := by cases k <;> rfl
@[simp] theorem State.setBank_resets (s : State) (k : Bank) (m : Memory) : (s.setBank k m).resets = s.resets := by cases k <;> rfl

@[simp] theorem State.writeBytes_brushSize (s : State) (k : Bank) (i : Nat) (bs : List Byte) : (s.writeBytes k i bs).brushSize = s.brushSize := by
  simp [State.writeBytes]
@[simp] theorem State.writeBytes_brushMode (s : State) (k : Bank) (i : Nat) (bs : List Byte) : (s.writeBytes k i bs).brushMode = s.brushMode := by
  simp [State.writeBytes]
@[simp] theorem State.writeBytes_strokeActive (s : State) (k : Bank) (i : Nat) (bs : List Byte) : (s.writeBytes k i bs).strokeActive = s.strokeActive := by
  simp [State.writeBytes]
@[simp] theorem State.writeBytes_lastX (s : State) (k : Bank) (i : Nat) (bs : List Byte) : (s.writeBytes k i bs).lastX = s.lastX := by
  simp [State.writeBytes]
@[simp] theorem State.writeBytes_lastY (s : State) (k : Bank) (i : Nat) (bs : List Byte) : (s.writeBytes k i bs).lastY = s.lastY := by
  simp [State.writeBytes]
@[simp] theorem State.writeBytes_viewW (s : State) (k : Bank) (i : Nat) (bs : List Byte) : (s.writeBytes k i bs).viewW = s.viewW := by
  simp [State.writeBytes]
@[simp] theorem State.writeBytes_viewH (s : State) (k : Bank) (i : Nat) (bs : List Byte) : (s.writeBytes k i bs).viewH = s.viewH := by
  simp [State.writeBytes]
@[simp] theorem State.writeBytes_resultCode (s : State) (k : Bank) (i : Nat) (bs : List Byte) : (s.writeBytes k i bs).resultCode = s.resultCode := by
  simp [State.writeBytes]
@[simp] theorem State.writeBytes_rleLen (s : State) (k : Bank) (i : Nat) (bs : List Byte) : (s.writeBytes k i bs).rleLen = s.rleLen := by
  simp [State.writeBytes]
@[simp] theorem State.writeBytes_pending (s : State) (k : Bank) (i : Nat) (bs : List Byte) : (s.writeBytes k i bs).pending = s.pending := by
  simp [State.writeBytes]
@[simp] theorem State.writeBytes_busData (s : State) (k : Bank) (i : Nat) (bs : List Byte) : (s.writeBytes k i bs).busData = s.busData := by
  simp [State.writeBytes]
@[simp] theorem State.writeBytes_resets (s : State) (k : Bank) (i : Nat) (bs : List Byte) : (s.writeBytes k i bs).resets = s.resets := by
  simp [State.writeBytes]

@[simp] theorem State.setBank_bank (s : State) (k j : Bank) (m : Memory) :
    (s.setBank k m).bank j = if j = k then m else s.bank j := by
  cases k <;> cases j <;> rfl

theorem State.setBank_canvas (s : State) (k : Bank) (m : Memory) :
    (s.setBank k m).canvas = if .canvas = k then m else s.canvas := by
  cases k <;> rfl

theorem State.setBank_packBuf (s : State) (k : Bank) (m : Memory) :
    (s.setBank k m).packBuf = if .packBuf = k then m else s.packBuf := by
  cases k <;> rfl

theorem State.setBank_rleBuf (s : State) (k : Bank) (m : Memory) :
    (s.setBank k m).rleBuf = if .rleBuf = k then m else s.rleBuf := by
  cases k <;> rfl

/-! ### Reset -/

@[simp] theorem State.resetBlock_canvas (s : State) : (s.resetBlock).canvas = [] := rfl
@[simp] theorem State.resetBlock_packBuf (s : State) : (s.resetBlock).packBuf = [] := rfl
@[simp] theorem State.resetBlock_rleBuf (s : State) : (s.resetBlock).rleBuf = [] := rfl
@[simp] theorem State.resetBlock_brushSize (s : State) : (s.resetBlock).brushSize = 1#4 := rfl
@[simp] theorem State.resetBlock_brushMode (s : State) : (s.resetBlock).brushMode = .draw := rfl
@[simp] theorem State.resetBlock_strokeActive (s : State) : (s.resetBlock).strokeActive = false := rfl
@[simp] theorem State.resetBlock_lastX (s : State) : (s.resetBlock).lastX = 0#7 := rfl
@[simp] theorem State.resetBlock_lastY (s : State) : (s.resetBlock).lastY = 0#6 := rfl
@[simp] theorem State.resetBlock_viewW (s : State) : (s.resetBlock).viewW = 128#14 := rfl
@[simp] theorem State.resetBlock_viewH (s : State) : (s.resetBlock).viewH = 64#14 := rfl
@[simp] theorem State.resetBlock_resultCode (s : State) : (s.resetBlock).resultCode = 0#4 := rfl
@[simp] theorem State.resetBlock_rleLen (s : State) : (s.resetBlock).rleLen = 0#12 := rfl
@[simp] theorem State.resetBlock_pending (s : State) : (s.resetBlock).pending = s.pending := rfl
@[simp] theorem State.resetBlock_busData (s : State) : (s.resetBlock).busData = s.busData := rfl
@[simp] theorem State.resetBlock_resets (s : State) : (s.resetBlock).resets = s.resets + 1 := rfl

/-! ### Host events -/

@[simp] theorem State.placeCommand_canvas (s : State) (w : Word) : (s.placeCommand w).canvas = s.canvas := rfl
@[simp] theorem State.placeCommand_packBuf (s : State) (w : Word) : (s.placeCommand w).packBuf = s.packBuf := rfl
@[simp] theorem State.placeCommand_rleBuf (s : State) (w : Word) : (s.placeCommand w).rleBuf = s.rleBuf := rfl
@[simp] theorem State.placeCommand_brushSize (s : State) (w : Word) : (s.placeCommand w).brushSize = s.brushSize := rfl
@[simp] theorem State.placeCommand_brushMode (s : State) (w : Word) : (s.placeCommand w).brushMode = s.brushMode := rfl
@[simp] theorem State.placeCommand_strokeActive (s : State) (w : Word) : (s.placeCommand w).strokeActive = s.strokeActive := rfl
@[simp] theorem State.placeCommand_lastX (s : State) (w : Word) : (s.placeCommand w).lastX = s.lastX := rfl
@[simp] theorem State.placeCommand_lastY (s : State) (w : Word) : (s.placeCommand w).lastY = s.lastY := rfl
@[simp] theorem State.placeCommand_viewW (s : State) (w : Word) : (s.placeCommand w).viewW = s.viewW := rfl
@[simp] theorem State.placeCommand_viewH (s : State) (w : Word) : (s.placeCommand w).viewH = s.viewH := rfl
@[simp] theorem State.placeCommand_resultCode (s : State) (w : Word) : (s.placeCommand w).resultCode = s.resultCode := rfl
@[simp] theorem State.placeCommand_rleLen (s : State) (w : Word) : (s.placeCommand w).rleLen = s.rleLen := rfl
@[simp] theorem State.placeCommand_pending (s : State) (w : Word) : (s.placeCommand w).pending = .access (.write32 0x0000#16 w) :: s.pending := rfl
@[simp] theorem State.placeCommand_busData (s : State) (w : Word) : (s.placeCommand w).busData = s.busData := rfl
@[simp] theorem State.placeCommand_resets (s : State) (w : Word) : (s.placeCommand w).resets = s.resets := rfl

@[simp] theorem State.cutAccess_canvas (s : State) (c : Option Access) : (s.cutAccess c).canvas = s.canvas := by
  rcases c with _ | c <;> try cases c <;> rfl
  rfl
@[simp] theorem State.cutAccess_packBuf (s : State) (c : Option Access) : (s.cutAccess c).packBuf = s.packBuf := by
  rcases c with _ | c <;> try cases c <;> rfl
  rfl
@[simp] theorem State.cutAccess_rleBuf (s : State) (c : Option Access) : (s.cutAccess c).rleBuf = s.rleBuf := by
  rcases c with _ | c <;> try cases c <;> rfl
  rfl
@[simp] theorem State.cutAccess_brushSize (s : State) (c : Option Access) : (s.cutAccess c).brushSize = s.brushSize := by
  rcases c with _ | c <;> try cases c <;> rfl
  rfl
@[simp] theorem State.cutAccess_brushMode (s : State) (c : Option Access) : (s.cutAccess c).brushMode = s.brushMode := by
  rcases c with _ | c <;> try cases c <;> rfl
  rfl
@[simp] theorem State.cutAccess_strokeActive (s : State) (c : Option Access) : (s.cutAccess c).strokeActive = s.strokeActive := by
  rcases c with _ | c <;> try cases c <;> rfl
  rfl
@[simp] theorem State.cutAccess_lastX (s : State) (c : Option Access) : (s.cutAccess c).lastX = s.lastX := by
  rcases c with _ | c <;> try cases c <;> rfl
  rfl
@[simp] theorem State.cutAccess_lastY (s : State) (c : Option Access) : (s.cutAccess c).lastY = s.lastY := by
  rcases c with _ | c <;> try cases c <;> rfl
  rfl
@[simp] theorem State.cutAccess_viewW (s : State) (c : Option Access) : (s.cutAccess c).viewW = s.viewW := by
  rcases c with _ | c <;> try cases c <;> rfl
  rfl
@[simp] theorem State.cutAccess_viewH (s : State) (c : Option Access) : (s.cutAccess c).viewH = s.viewH := by
  rcases c with _ | c <;> try cases c <;> rfl
  rfl
@[simp] theorem State.cutAccess_resultCode (s : State) (c : Option Access) : (s.cutAccess c).resultCode = s.resultCode := by
  rcases c with _ | c <;> try cases c <;> rfl
  rfl
@[simp] theorem State.cutAccess_rleLen (s : State) (c : Option Access) : (s.cutAccess c).rleLen = s.rleLen := by
  rcases c with _ | c <;> try cases c <;> rfl
  rfl
@[simp] theorem State.cutAccess_pending (s : State) (c : Option Access) : (s.cutAccess c).pending = s.pending := by
  rcases c with _ | c <;> try cases c <;> rfl
  rfl
@[simp] theorem State.cutAccess_resets (s : State) (c : Option Access) : (s.cutAccess c).resets = s.resets := by
  rcases c with _ | c <;> try cases c <;> rfl
  rfl

end Sys2Proof.Machine
end

