-- ==== Sys2Proof/Laws/Memory.lean ====
section
/-! SUPPORT. The laws of the three memories: what is listed after a write, that a write keeps the canonical
form, and that equal canonical memories are equal data. -/

namespace Sys2Proof.Machine

/-! ### What is listed -/

@[simp] theorem Memory.listed_nil (i : Nat) : Memory.listed [] i = none := rfl

theorem Memory.listed_cons (c : Host.Cell) (m : Memory) (i : Nat) :
    Memory.listed (c :: m) i = if c.1 = i then some c.2 else Memory.listed m i := rfl

theorem Memory.listed_append (m n : Memory) (i : Nat) :
    Memory.listed (m ++ n) i = (Memory.listed m i).or (Memory.listed n i) := by
  induction m with
  | nil => simp
  | cons c t ih => by_cases h : c.1 = i <;> simp [Memory.listed_cons, h, ih]

/-- A filter on the index keeps exactly the listed bytes of the indices it accepts. -/
theorem Memory.listed_filter (p : Nat → Bool) (m : Memory) (i : Nat) :
    Memory.listed (m.filter (fun c => p c.1)) i = if p i then Memory.listed m i else none := by
  induction m with
  | nil => simp
  | cons c t ih =>
    by_cases hc : p c.1 = true <;> by_cases h : c.1 = i
    · subst h; simp [Memory.listed_cons, hc]
    · simp [Memory.listed_cons, hc, h, ih]
    · subst h; simp [hc, ih]
    · simp [Memory.listed_cons, hc, h, ih]

theorem Memory.listed_cells_below (r : Option Byte) (base i : Nat) (bs : List Byte) (h : i < base) :
    Memory.listed (Memory.cells r base bs) i = none := by
  induction bs generalizing base with
  | nil => rfl
  | cons b t ih =>
    have ih := ih (base + 1) (by omega)
    have hne : base ≠ i := by omega
    by_cases hb : some b = r <;> simp [Memory.cells, hb, Memory.listed_cons, hne, ih]

theorem Memory.listed_cells (r : Option Byte) (base j : Nat) (bs : List Byte) :
    Memory.listed (Memory.cells r base bs) (base + j) =
      (bs[j]?).filter (fun b => decide (some b ≠ r)) := by
  induction bs generalizing base j with
  | nil => rfl
  | cons b t ih =>
    cases j with
    | zero =>
      by_cases hb : some b = r
      · subst hb; simp [Memory.cells, Memory.listed_cells_below, Option.filter]
      · simp [Memory.cells, hb, Memory.listed_cons, Option.filter]
    | succ j =>
      have ih := ih (base + 1) j
      rw [show base + 1 + j = base + (j + 1) by omega] at ih
      by_cases hb : some b = r <;> simp [Memory.cells, hb, Memory.listed_cons, ih]

/-- Everything a write does to what is listed. -/
theorem Memory.listed_write (r : Option Byte) (m : Memory) (base i : Nat) (bs : List Byte) :
    Memory.listed (Memory.write r m base bs) i =
      if base ≤ i ∧ i < base + bs.length then (bs[i - base]?).filter (fun b => decide (some b ≠ r))
      else Memory.listed m i := by
  unfold Memory.write
  rw [Memory.listed_append, Memory.listed_append,
    Memory.listed_filter (fun j => decide (j < base)),
    Memory.listed_filter (fun j => decide (base + bs.length ≤ j))]
  by_cases h1 : i < base
  · have : ¬ base ≤ i := by omega
    have h2 : ¬ base + bs.length ≤ i := by omega
    simp [h1, h2, this, Memory.listed_cells_below]
  · obtain ⟨j, rfl⟩ : ∃ j, i = base + j := ⟨i - base, by omega⟩
    rw [Memory.listed_cells]
    by_cases h2 : j < bs.length
    · have : ¬ base + bs.length ≤ base + j := by omega
      simp [h2, Nat.not_le.mpr h2]
    · simp [h2, Nat.le_of_not_lt h2]

/-! ### The canonical form -/

theorem Memory.wf_iff (k : Bank) (m : Memory) :
    Memory.wf k m = true ↔ (m.map (·.1)).Pairwise (· < ·) ∧ (∀ c ∈ m, c.1 < k.size) ∧
      ∀ c ∈ m, some c.2 ≠ k.resetByte := by
  simp only [Memory.wf, Bool.and_eq_true, decide_eq_true_eq, List.all_eq_true, and_assoc]

@[simp] theorem Memory.wf_nil (k : Bank) : Memory.wf k [] = true := by
  cases k <;> rfl

theorem Memory.mem_cells {r : Option Byte} {base : Nat} {bs : List Byte} {c : Host.Cell}
    (h : c ∈ Memory.cells r base bs) : base ≤ c.1 ∧ c.1 < base + bs.length ∧ some c.2 ≠ r := by
  induction bs generalizing base with
  | nil => simp [Memory.cells] at h
  | cons b t ih =>
    by_cases hb : some b = r
    · simp only [Memory.cells, hb, if_true] at h
      have := ih h
      simp only [List.length_cons]
      exact ⟨by omega, by omega, this.2.2⟩
    · simp only [Memory.cells, hb, if_false, List.mem_cons] at h
      rcases h with rfl | h
      · exact ⟨Nat.le_refl _, by simp, hb⟩
      · have := ih h
        simp only [List.length_cons]
        exact ⟨by omega, by omega, this.2.2⟩

theorem Memory.cells_rising (r : Option Byte) (base : Nat) (bs : List Byte) :
    ((Memory.cells r base bs).map (·.1)).Pairwise (· < ·) := by
  induction bs generalizing base with
  | nil => simp [Memory.cells]
  | cons b t ih =>
    by_cases hb : some b = r
    · simpa [Memory.cells, hb] using ih (base + 1)
    · simp only [Memory.cells, hb, if_false, List.map_cons, List.pairwise_cons]
      refine ⟨fun i hi => ?_, ih (base + 1)⟩
      obtain ⟨c, hc, rfl⟩ := List.mem_map.mp hi
      have := (Memory.mem_cells hc).1
      omega

/-- A write below the size of the memory keeps the canonical form. -/
theorem Memory.wf_write {k : Bank} {m : Memory} (base : Nat) (bs : List Byte)
    (hm : Memory.wf k m = true) (hb : ∀ j < bs.length, base + j < k.size) :
    Memory.wf k (Memory.write k.resetByte m base bs) = true := by
  rw [Memory.wf_iff] at hm ⊢
  obtain ⟨hsort, hsize, hreset⟩ := hm
  have hcell : ∀ c ∈ Memory.cells k.resetByte base bs, c.1 < k.size := by
    intro c hc
    have := Memory.mem_cells hc
    have := hb (c.1 - base) (by omega)
    omega
  refine ⟨?_, ?_, ?_⟩
  · have hsub : ∀ p : Host.Cell → Bool, ((m.filter p).map (·.1)).Pairwise (· < ·) :=
      fun p => hsort.sublist (List.filter_sublist.map _)
    simp only [Memory.write, List.map_append, List.pairwise_append]
    refine ⟨⟨hsub _, Memory.cells_rising _ _ _, ?_⟩, hsub _, ?_⟩
    · intro i hi j hj
      obtain ⟨c, hc, rfl⟩ := List.mem_map.mp hi
      obtain ⟨d, hd, rfl⟩ := List.mem_map.mp hj
      have h1 := (List.mem_filter.mp hc).2
      have h2 := (Memory.mem_cells hd).1
      simp only [decide_eq_true_eq] at h1
      omega
    · intro i hi j hj
      obtain ⟨d, hd, rfl⟩ := List.mem_map.mp hj
      have h2 := (List.mem_filter.mp hd).2
      simp only [decide_eq_true_eq] at h2
      rcases List.mem_append.mp hi with hi | hi <;> obtain ⟨c, hc, rfl⟩ := List.mem_map.mp hi
      · have h1 := (List.mem_filter.mp hc).2
        simp only [decide_eq_true_eq] at h1
        omega
      · have := (Memory.mem_cells hc).2.1
        omega
  · intro c hc
    simp only [Memory.write, List.mem_append, List.mem_filter] at hc
    rcases hc with (⟨h, _⟩ | h) | ⟨h, _⟩
    exacts [hsize c h, hcell c h, hsize c h]
  · intro c hc
    simp only [Memory.write, List.mem_append, List.mem_filter] at hc
    rcases hc with (⟨h, _⟩ | h) | ⟨h, _⟩
    exacts [hreset c h, (Memory.mem_cells h).2.2, hreset c h]

/-! ### Equal canonical memories are equal data -/

theorem Memory.listed_eq_some_of_mem {m : Memory} (h : (m.map (·.1)).Pairwise (· < ·)) {c : Host.Cell}
    (hc : c ∈ m) : Memory.listed m c.1 = some c.2 := by
  induction m with
  | nil => cases hc
  | cons d t ih =>
    simp only [List.map_cons, List.pairwise_cons] at h
    rcases List.mem_cons.mp hc with rfl | hc
    · simp [Memory.listed_cons]
    · have := h.1 c.1 (List.mem_map_of_mem hc)
      rw [Memory.listed_cons, if_neg (by omega), ih h.2 hc]

theorem Memory.mem_of_listed_eq_some {m : Memory} {i : Nat} {b : Byte}
    (h : Memory.listed m i = some b) : (i, b) ∈ m := by
  induction m with
  | nil => cases h
  | cons d t ih =>
    by_cases hd : d.1 = i
    · subst hd
      simp only [Memory.listed_cons, if_true, Option.some.injEq] at h
      subst h
      exact List.mem_cons_self
    · rw [Memory.listed_cons, if_neg hd] at h
      exact List.mem_cons_of_mem _ (ih h)

/-- Two rising lists of cells that list the same bytes are the same list. -/
theorem Memory.ext_of_rising {m n : Memory} (hm : (m.map (·.1)).Pairwise (· < ·))
    (hn : (n.map (·.1)).Pairwise (· < ·)) (h : ∀ i, Memory.listed m i = Memory.listed n i) : m = n := by
  have hsub : ∀ {a b : Memory}, (a.map (·.1)).Pairwise (· < ·) → (∀ i, Memory.listed a i = Memory.listed b i) →
      a ⊆ b := by
    intro a b ha hab c hc
    have := Memory.listed_eq_some_of_mem ha hc
    rw [hab] at this
    exact Memory.mem_of_listed_eq_some this
  have hm' : m.Pairwise (fun c d => c.1 < d.1) := List.pairwise_map.mp hm
  have hn' : n.Pairwise (fun c d => c.1 < d.1) := List.pairwise_map.mp hn
  have nodup : ∀ {a : Memory}, a.Pairwise (fun c d => c.1 < d.1) → a.Nodup :=
    fun ha => ha.imp (fun {c d} hcd heq => by rw [heq] at hcd; exact Nat.lt_irrefl _ hcd)
  have hperm : m.Perm n :=
    (List.subperm_of_subset (nodup hm') (hsub hm h)).antisymm
      (List.subperm_of_subset (nodup hn') (hsub hn (fun i => (h i).symm)))
  exact hperm.eq_of_pairwise (fun c d _ _ hcd hdc => absurd hcd (by omega)) hm' hn'

theorem Memory.ext_of_wf {k : Bank} {m n : Memory} (hm : Memory.wf k m = true) (hn : Memory.wf k n = true)
    (h : ∀ i, Memory.listed m i = Memory.listed n i) : m = n :=
  Memory.ext_of_rising ((Memory.wf_iff k m).mp hm).1 ((Memory.wf_iff k n).mp hn).1 h

/-- A canonical CANVAS is determined by the bytes it reads as. -/
theorem Memory.canvas_ext {m n : Memory} (hm : Memory.wf .canvas m = true) (hn : Memory.wf .canvas n = true)
    (h : ∀ i < Config.NPIX,
      (Memory.listed m i).getD Config.LUM_OFF = (Memory.listed n i).getD Config.LUM_OFF) : m = n := by
  have out : ∀ {a : Memory}, Memory.wf .canvas a = true → ∀ i b, Memory.listed a i = some b →
      i < Config.NPIX ∧ b ≠ Config.LUM_OFF := by
    intro a ha i b hb
    have hmem := Memory.mem_of_listed_eq_some hb
    obtain ⟨_, h1, h2⟩ := (Memory.wf_iff _ _).mp ha
    exact ⟨h1 _ hmem, fun he => h2 _ hmem (by rw [he]; rfl)⟩
  refine Memory.ext_of_wf hm hn fun i => ?_
  cases hi : Memory.listed m i with
  | some b =>
    have hb := out hm i b hi
    cases hj : Memory.listed n i with
    | some d => simpa [hi, hj] using h i hb.1
    | none => exact absurd (by simpa [hi, hj] using h i hb.1) hb.2
  | none =>
    cases hj : Memory.listed n i with
    | none => rfl
    | some d =>
      have hd := out hn i d hj
      exact absurd (by simpa [hi, hj] using (h i hd.1).symm) hd.2

/-! ### Reads and writes of the state -/

theorem State.writeBytes_bank (s : State) (k j : Bank) (base : Nat) (bs : List Byte) :
    (s.writeBytes k base bs).bank j =
      if j = k then Memory.write k.resetByte (s.bank k) base (bs.take (k.size - base)) else s.bank j := by
  simp [State.writeBytes]

/-- Reading an element where a cell lists the reset value is reading it unlisted. -/
theorem Bank.unlistedByte_of_reset {k : Bank} {b : Byte} (h : some b = k.resetByte) (n i : Nat) :
    k.unlistedByte n i = b := by
  cases k
  · exact (Option.some.inj h).symm
  · cases h
  · cases h

/-- Everything a write does to what is read: the bytes inside the memory are the new ones, and every other
byte of every memory reads as before. -/
theorem State.readByte_writeBytes (s : State) (k j : Bank) (base i : Nat) (bs : List Byte) :
    (s.writeBytes k base bs).readByte j i =
      if j = k ∧ base ≤ i ∧ i < base + bs.length ∧ i < k.size then bs.getD (i - base) 0#8
      else s.readByte j i := by
  unfold State.readByte
  rw [State.writeBytes_bank, State.writeBytes_resets]
  by_cases hj : j = k
  · subst hj
    rw [if_pos rfl, Memory.listed_write, List.length_take]
    by_cases hi : base ≤ i ∧ i < base + bs.length ∧ i < j.size
    · have h1 : base ≤ i ∧ i < base + min (j.size - base) bs.length := by omega
      have h2 : i - base < j.size - base := by omega
      have h3 : i - base < bs.length := by omega
      rw [if_pos h1, if_pos ⟨rfl, hi⟩, List.getElem?_take, if_pos h2, List.getElem?_eq_getElem h3,
        List.getD_eq_getElem?_getD, List.getElem?_eq_getElem h3]
      by_cases hb : some (bs[i - base]) = j.resetByte
      · have hf : (some bs[i - base]).filter (fun b => decide (some b ≠ j.resetByte)) = none := by
          simp [Option.filter, hb]
        rw [hf]
        exact Bank.unlistedByte_of_reset hb s.resets i
      · simp [Option.filter, hb]
    · have h1 : ¬ (base ≤ i ∧ i < base + min (j.size - base) bs.length) := by omega
      rw [if_neg h1, if_neg (by tauto)]
  · simp [hj]

/-- A write keeps the canonical form of every memory. -/
theorem State.wf_writeBytes {s : State} {j : Bank} (k : Bank) (base : Nat) (bs : List Byte)
    (h : Memory.wf j (s.bank j) = true) : Memory.wf j ((s.writeBytes k base bs).bank j) = true := by
  rw [State.writeBytes_bank]
  by_cases hj : j = k
  · subst hj
    rw [if_pos rfl]
    refine Memory.wf_write base _ h fun i hi => ?_
    rw [List.length_take] at hi
    omega
  · rwa [if_neg hj]

/-- What a write leaves alone: everything but the memory written. -/
theorem State.writeBytes_frame (s : State) (k : Bank) (base : Nat) (bs : List Byte) :
    s.writeBytes k base bs = s.setBank k ((s.writeBytes k base bs).bank k) := by
  rw [State.writeBytes_bank, if_pos rfl]
  rfl

@[simp] theorem State.readBytes_length (s : State) (k : Bank) (n : Nat) : (s.readBytes k n).length = n := by
  simp [State.readBytes]

theorem State.readBytes_getD (s : State) (k : Bank) {n i : Nat} (h : i < n) :
    (s.readBytes k n).getD i 0#8 = s.readByte k i := by
  simp [State.readBytes, h]

/-- A read depends on the memory read and on the reset number only. -/
theorem State.readByte_congr {s t : State} {k : Bank} (hb : s.bank k = t.bank k) (hr : s.resets = t.resets)
    (i : Nat) : s.readByte k i = t.readByte k i := by
  simp [State.readByte, hb, hr]

/-- At reset the three memories are in canonical form. -/
theorem State.reset_wf (k : Bank) : Memory.wf k (State.reset.bank k) = true := by
  cases k <;> rfl

end Sys2Proof.Machine
end

