-- ==== Sys2Proof/Laws/BitPacker.lean ====
section
/-! SUPPORT. What the Bit-Packer's shared operations give: a byte made of bits, and the two directions of the
layout on indices. -/

namespace Sys2Proof.Machine

/-- Bit `b` of the byte made of the bits `f` is `f b`. -/
theorem byteOfBits_getLsbD (f : Nat → Bool) {b : Nat} (h : b < 8) : (byteOfBits f).getLsbD b = f b := by
  have all : ∀ x0 x1 x2 x3 x4 x5 x6 x7 : Bool, ∀ b < 8,
      (BitVec.ofNat 8 ([if x0 then 2 ^ 0 else 0, if x1 then 2 ^ 1 else 0, if x2 then 2 ^ 2 else 0,
        if x3 then 2 ^ 3 else 0, if x4 then 2 ^ 4 else 0, if x5 then 2 ^ 5 else 0,
        if x6 then 2 ^ 6 else 0, if x7 then 2 ^ 7 else 0].sum)).getLsbD b =
        [x0, x1, x2, x3, x4, x5, x6, x7].getD b false := by
    decide
  refine (all (f 0) (f 1) (f 2) (f 3) (f 4) (f 5) (f 6) (f 7) b h).trans ?_
  interval_cases b <;> rfl

/-- Bit `b` of packed byte `i` is the threshold of its pixel. -/
theorem State.packedByte_getLsbD (s : State) (i : Nat) {b : Nat} (h : b < 8) :
    (s.packedByte i).getLsbD b = overThreshold (s.pixel (packColumn i b) (packRow i)) :=
  byteOfBits_getLsbD _ h

/-- Canvas element `8*i + b` is the pixel of bit `b` of byte `i`. -/
theorem packed_element {i b : Nat} (hb : b < 8) :
    packRow i * 128 + packColumn i b = 8 * i + b ∧ packColumn i b < 128 := by
  simp only [packRow, packColumn, Config.ROW_BYTES]
  omega

/-- The pixel of canvas element `e` is bit `e mod 8` of byte `e div 8`. -/
theorem element_packed (e : Nat) :
    packByteIndex (e % 128) (e / 128) = e / 8 ∧ packBitIndex (e % 128) = e % 8 := by
  simp only [packByteIndex, packBitIndex, Config.ROW_BYTES]
  omega

end Sys2Proof.Machine
end

