-- ==== Sys2Proof/Laws/Bus.lean ====
section
/-! SUPPORT. What the host bus operations do: the address map, one stored byte, and a stored window. -/

namespace Sys2Proof.Machine

/-- The address map, as one case per region (20 R51). -/
theorem windowOf_cases (a : Nat) :
    (0x1000 ≤ a ∧ a ≤ 0x13FF ∧ windowOf a = some (.packBuf, a - 0x1000)) ∨
    (0x2000 ≤ a ∧ a ≤ 0x27FF ∧ windowOf a = some (.rleBuf, a - 0x2000)) ∨
    (0x4000 ≤ a ∧ a ≤ 0x5FFF ∧ windowOf a = some (.canvas, a - 0x4000)) ∨
    (¬ bufferAddress a ∧ ¬ canvasAddress a ∧ windowOf a = none) := by
  unfold windowOf bufferAddress canvasAddress
  by_cases h1 : 0x1000 ≤ a ∧ a ≤ 0x13FF
  · exact .inl ⟨h1.1, h1.2, if_pos h1⟩
  by_cases h2 : 0x2000 ≤ a ∧ a ≤ 0x27FF
  · exact .inr (.inl ⟨h2.1, h2.2, by rw [if_neg h1, if_pos h2]⟩)
  by_cases h3 : 0x4000 ≤ a ∧ a ≤ 0x5FFF
  · exact .inr (.inr (.inl ⟨h3.1, h3.2, by rw [if_neg h1, if_neg h2, if_pos h3]⟩))
  · exact .inr (.inr (.inr ⟨by omega, h3, by rw [if_neg h1, if_neg h2, if_neg h3]⟩))

/-- A byte stored at a buffer address is the byte read there, and every other address reads as before; at any
other address a store does nothing. -/
theorem State.storeByte_byteAt (s : State) (a c : Nat) (b : Byte) :
    (bufferAddress a → (s.storeByte a b).byteAt c = if c = a then b else s.byteAt c) ∧
      (¬ bufferAddress a → s.storeByte a b = s) := by
  have other : ∀ (k : Bank) (i : Nat), i < k.size →
      (∀ c, c ≠ a → windowOf c ≠ some (k, i)) → windowOf a = some (k, i) →
      (s.writeBytes k i [b]).byteAt c = if c = a then b else s.byteAt c := by
    intro k i hi hne ha
    by_cases hc : c = a
    · subst hc
      simp [State.byteAt, ha, State.readByte_writeBytes, hi]
    · unfold State.byteAt
      rw [if_neg hc]
      cases hw : windowOf c with
      | none => rfl
      | some q =>
        obtain ⟨j, n⟩ := q
        have hn : ¬ (j = k ∧ i ≤ n ∧ n < i + [b].length ∧ n < k.size) := by
          rintro ⟨rfl, h1, h2, -⟩
          have h2 : n < i + 1 := h2
          exact hne c hc (by rw [hw, show n = i by omega])
        show (s.writeBytes k i [b]).readByte j n = s.readByte j n
        rw [State.readByte_writeBytes, if_neg hn]
  rcases windowOf_cases a with ⟨h1, h2, h⟩ | ⟨h1, h2, h⟩ | ⟨h1, h2, h⟩ | ⟨h1, h2, h⟩
  · refine ⟨fun _ => ?_, fun hb => absurd (.inl ⟨h1, h2⟩) hb⟩
    have := other .packBuf (a - 0x1000) (by show a - 0x1000 < 1024; omega) ?_ h
    · rwa [State.storeByte, h]
    · intro c hc hw
      rcases windowOf_cases c with ⟨_, _, h'⟩ | ⟨_, _, h'⟩ | ⟨_, _, h'⟩ | ⟨_, _, h'⟩ <;>
        rw [h'] at hw <;> simp at hw
      omega
  · refine ⟨fun _ => ?_, fun hb => absurd (.inr ⟨h1, h2⟩) hb⟩
    have := other .rleBuf (a - 0x2000) (by show a - 0x2000 < 2048; omega) ?_ h
    · rwa [State.storeByte, h]
    · intro c hc hw
      rcases windowOf_cases c with ⟨_, _, h'⟩ | ⟨_, _, h'⟩ | ⟨_, _, h'⟩ | ⟨_, _, h'⟩ <;>
        rw [h'] at hw <;> simp at hw
      omega
  · refine ⟨fun hb => ?_, fun _ => by rw [State.storeByte, h]⟩
    unfold bufferAddress at hb
    omega
  · exact ⟨fun hb => absurd hb h1, fun _ => by rw [State.storeByte, h]⟩

/-- A stored byte changes nothing but the two buffers. -/
theorem State.storeByte_frame (s : State) (a : Nat) (b : Byte) :
    s.storeByte a b =
      { s with packBuf := (s.storeByte a b).packBuf, rleBuf := (s.storeByte a b).rleBuf } := by
  rcases windowOf_cases a with ⟨_, _, h⟩ | ⟨_, _, h⟩ | ⟨_, _, h⟩ | ⟨_, _, h⟩ <;>
    simp only [State.storeByte, h] <;> rfl

/-- A stored byte keeps the canonical form of every memory. -/
theorem State.wf_storeByte {s : State} {k : Bank} (a : Nat) (b : Byte) (h : Memory.wf k (s.bank k) = true) :
    Memory.wf k ((s.storeByte a b).bank k) = true := by
  rcases windowOf_cases a with ⟨_, _, hw⟩ | ⟨_, _, hw⟩ | ⟨_, _, hw⟩ | ⟨_, _, hw⟩ <;>
    simp only [State.storeByte, hw]
  · exact State.wf_writeBytes _ _ _ h
  · exact State.wf_writeBytes _ _ _ h
  · exact h
  · exact h

/-- The first `n` bytes of a stored window, one more. -/
theorem storeWindow_fold_succ (s : State) (a n : Nat) (v : Word) :
    (List.range (n + 1)).foldl (fun t k => t.storeByte (a + k) (v.extractLsb' (8 * k) 8)) s =
      ((List.range n).foldl (fun t k => t.storeByte (a + k) (v.extractLsb' (8 * k) 8)) s).storeByte (a + n)
        (v.extractLsb' (8 * n) 8) := by
  rw [List.range_succ, List.foldl_append]
  rfl

end Sys2Proof.Machine
end

