-- ==== Sys2Proof/Laws/Operands.lean ====
section
/-! SUPPORT. What the operand forms give: clamps, mapped coordinates, brush sizes, VIEW fields, spans. -/

namespace Sys2Proof.Machine

theorem clamp_eq_max_min {v lo hi : Int} (h : lo ≤ hi) : clamp v lo hi = max lo (min hi v) := by
  unfold clamp
  split
  · omega
  · split <;> omega

theorem clamp_bounds {v lo hi : Int} (h : lo ≤ hi) : lo ≤ clamp v lo hi ∧ clamp v lo hi ≤ hi := by
  rw [clamp_eq_max_min h]
  omega

theorem mapCoord_bounds (p : Int) (view : Nat) {n : Nat} (h : 0 < n) :
    0 ≤ mapCoord p view n ∧ mapCoord p view n < n := by
  have := clamp_bounds (v := p * n / view) (lo := 0) (hi := (n : Int) - 1) (by omega)
  unfold mapCoord
  omega

theorem clampSize_toNat (sz : Nat) : (clampSize sz).toNat = max 1 (min 10 sz) := by
  have h : clamp sz Config.SIZE_MIN Config.SIZE_MAX = max 1 (min 10 (sz : Int)) :=
    clamp_eq_max_min (by decide)
  unfold clampSize
  rw [h, BitVec.toNat_ofNat]
  omega

theorem viewField_ne_zero (v : Nat) : viewField v ≠ 0#14 := by
  unfold viewField
  split
  · decide
  · assumption

/-- On the axis, the span is the square's own interval, before the edges cut it. -/
theorem mem_span_iff (c : Int) (size n : Nat) {x : Nat} (hx : x < n) :
    ((span c size n).lo ≤ x ∧ (x : Int) ≤ (span c size n).hi) ↔
      c - size / 2 ≤ x ∧ (x : Int) ≤ c - size / 2 + size - 1 := by
  simp only [span]
  omega

theorem span_lo_nonneg (c : Int) (size n : Nat) : 0 ≤ (span c size n).lo := by
  simp only [span]
  omega

theorem span_hi_lt (c : Int) (size n : Nat) : (span c size n).hi < n := by
  simp only [span]
  omega

/-- Setting the last point to a mapped point records it. -/
theorem State.setLast_mapPoint (s t : State) (px py : Int) :
    ((t.setLast (s.mapPoint px py)).lastX.toNat : Int) = s.mapX px ∧
      ((t.setLast (s.mapPoint px py)).lastY.toNat : Int) = s.mapY py := by
  have hx := mapCoord_bounds px s.viewW.toNat (n := Config.W) (by decide)
  have hy := mapCoord_bounds py s.viewH.toNat (n := Config.H) (by decide)
  simp only [State.setLast_lastX, State.setLast_lastY, State.mapPoint, State.mapX, State.mapY,
    BitVec.toNat_ofInt, Config.W, Config.H] at hx hy ⊢
  omega

theorem State.lastPoint_setLast_mapPoint (s t : State) (px py : Int) :
    (t.setLast (s.mapPoint px py)).lastPoint = s.mapPoint px py := by
  have h := State.setLast_mapPoint s t px py
  simp only [State.lastPoint, h.1, h.2]
  rfl

end Sys2Proof.Machine
end

