-- ==== Sys2Proof/Laws/PerInstr.lean ====
section
/-! SUPPORT. Per-instruction lemmas: the word of every command matches the row of the opcode map
that bears its mnemonic (spec 30 R88, R91). -/

namespace Sys2Proof.Laws

/-- The word of `i` matches the row of the opcode map that bears `i`'s mnemonic. -/
def EncodeMatchesRow.Statement (i : Instr) : Prop :=
  ∃ r ∈ opcodeMap, r.mnemonic = i.mnemonic ∧ r.matchesWord (encode i) = true

/-- A word of two 14-bit fields matches its opcode, whatever the fields hold. -/
theorem twoFields_mask (op : BitVec 4) (a b : BitVec 14) :
    ((op ++ a ++ b : Word) &&& 0xF0000000#32) = op ++ 0#28 := by
  apply BitVec.eq_of_getLsbD_eq
  intro i hi
  simp only [BitVec.getLsbD_and, BitVec.getLsbD_append]
  interval_cases i <;> simp

/-- A SETSIZE word matches its opcode and reserved bits, whatever the size. -/
theorem sizeField_mask (b : BitVec 8) :
    ((0x5#4 ++ 0#20 ++ b : Word) &&& 0xFFFFFF00#32) = 0x50000000#32 := by
  apply BitVec.eq_of_getLsbD_eq
  intro i hi
  simp only [BitVec.getLsbD_and, BitVec.getLsbD_append]
  interval_cases i <;> simp

theorem EncodeMatchesRow.nop : EncodeMatchesRow.Statement .nop :=
  ⟨_, List.getElem_mem (n := 0) (by decide), rfl, by decide⟩

theorem EncodeMatchesRow.beginStroke (px py : Int) : EncodeMatchesRow.Statement (.beginStroke px py) :=
  ⟨_, List.getElem_mem (n := 1) (by decide), rfl, beq_iff_eq.mpr (twoFields_mask 0x1#4 _ _)⟩

theorem EncodeMatchesRow.extendStroke (px py : Int) : EncodeMatchesRow.Statement (.extendStroke px py) :=
  ⟨_, List.getElem_mem (n := 2) (by decide), rfl, beq_iff_eq.mpr (twoFields_mask 0x2#4 _ _)⟩

theorem EncodeMatchesRow.endStroke : EncodeMatchesRow.Statement .endStroke :=
  ⟨_, List.getElem_mem (n := 3) (by decide), rfl, by decide⟩

theorem EncodeMatchesRow.clear : EncodeMatchesRow.Statement .clear :=
  ⟨_, List.getElem_mem (n := 4) (by decide), rfl, by decide⟩

theorem EncodeMatchesRow.setSize (sz : Nat) : EncodeMatchesRow.Statement (.setSize sz) :=
  ⟨_, List.getElem_mem (n := 5) (by decide), rfl, beq_iff_eq.mpr (sizeField_mask _)⟩

theorem EncodeMatchesRow.setMode (md : BrushMode) : EncodeMatchesRow.Statement (.setMode md) :=
  ⟨_, List.getElem_mem (n := 6) (by decide), rfl, by cases md <;> decide⟩

theorem EncodeMatchesRow.setView (vw vh : Nat) : EncodeMatchesRow.Statement (.setView vw vh) :=
  ⟨_, List.getElem_mem (n := 7) (by decide), rfl, beq_iff_eq.mpr (twoFields_mask 0x7#4 _ _)⟩

theorem EncodeMatchesRow.pack : EncodeMatchesRow.Statement .pack :=
  ⟨_, List.getElem_mem (n := 8) (by decide), rfl, by decide⟩

theorem EncodeMatchesRow.unpack : EncodeMatchesRow.Statement .unpack :=
  ⟨_, List.getElem_mem (n := 9) (by decide), rfl, by decide⟩

theorem EncodeMatchesRow.encodeRle : EncodeMatchesRow.Statement .encodeRle :=
  ⟨_, List.getElem_mem (n := 10) (by decide), rfl, by decide⟩

theorem EncodeMatchesRow.decodeRle : EncodeMatchesRow.Statement .decodeRle :=
  ⟨_, List.getElem_mem (n := 11) (by decide), rfl, by decide⟩

end Sys2Proof.Laws
end

