-- ==== Sys2Proof/Laws/Rasterizer.lean ====
section
/-! SUPPORT. What painting does: the pixels a row, a rectangle, a plot and a line write, and that they change
nothing but CANVAS and keep it canonical. -/

namespace Sys2Proof.Machine

/-! ### Nothing but CANVAS changes -/

/-- `t` differs from `s` in CANVAS only. -/
def SameButCanvas (s t : State) : Prop := t = { s with canvas := t.canvas }

theorem SameButCanvas.refl (s : State) : SameButCanvas s s := rfl

theorem SameButCanvas.trans {s t u : State} (h1 : SameButCanvas s t) (h2 : SameButCanvas t u) :
    SameButCanvas s u := by
  unfold SameButCanvas at *
  rw [h2, h1]

theorem State.fillRow_frame (s : State) (xs : Interval) (v : Byte) (y : Nat) :
    SameButCanvas s (s.fillRow xs v y) := rfl

/-- A fold of updates that each change only CANVAS changes only CANVAS. -/
theorem SameButCanvas.foldl {α : Type} {f : State → α → State} (hf : ∀ s a, SameButCanvas s (f s a))
    (l : List α) (s : State) : SameButCanvas s (l.foldl f s) := by
  induction l generalizing s with
  | nil => exact .refl s
  | cons a l ih => exact (hf s a).trans (ih (f s a))

theorem State.fillRect_frame (s : State) (xs ys : Interval) (v : Byte) :
    SameButCanvas s (s.fillRect xs ys v) :=
  .foldl (fun t _ => t.fillRow_frame xs v _) _ s

theorem State.plot_frame (s : State) (c : Point) : SameButCanvas s (s.plot c) := s.fillRect_frame _ _ _

theorem State.drawLine_frame (s : State) (a b : Point) : SameButCanvas s (s.drawLine a b) :=
  .foldl (fun t p => t.plot_frame p) _ s

theorem SameButCanvas.brushSize {s t : State} (h : SameButCanvas s t) : t.brushSize = s.brushSize := by
  rw [h]

theorem SameButCanvas.brushMode {s t : State} (h : SameButCanvas s t) : t.brushMode = s.brushMode := by
  rw [h]

theorem SameButCanvas.resets {s t : State} (h : SameButCanvas s t) : t.resets = s.resets := by
  rw [h]

theorem SameButCanvas.plotValue {s t : State} (h : SameButCanvas s t) : t.plotValue = s.plotValue := by
  unfold State.plotValue
  rw [h.brushMode]

theorem SameButCanvas.inSquare {s t : State} (h : SameButCanvas s t) (c : Point) (x y : Nat) :
    t.inSquare c x y ↔ s.inSquare c x y := by
  unfold State.inSquare
  rw [h.brushSize]

theorem State.plotValue_eq (s : State) :
    s.plotValue = if s.brushMode = .draw then 255#8 else 0#8 := by
  unfold State.plotValue
  cases s.brushMode <;> rfl

/-! ### Pixels -/

/-- A pixel depends on CANVAS only. -/
theorem State.pixel_congr {s t : State} (h : s.canvas = t.canvas) (x y : Nat) : s.pixel x y = t.pixel x y := by
  unfold State.pixel State.readByte
  simp only [State.bank, h]
  rfl

/-- Two canvas elements of columns below `W` are the same iff their pixels are. -/
theorem element_inj {x y x' y' : Nat} (hx : x < 128) (hx' : x' < 128)
    (h : y * 128 + x = y' * 128 + x') : x = x' ∧ y = y' := by
  omega

/-- What a row fill does to a pixel. -/
theorem State.fillRow_pixel (s : State) {xs : Interval} (v : Byte) {y a b : Nat} (hlo : 0 ≤ xs.lo)
    (hhi : xs.hi < 128) (ha : a < 128) (hb : b < 64) :
    (s.fillRow xs v y).pixel a b =
      if b = y ∧ xs.lo ≤ a ∧ (a : Int) ≤ xs.hi then v else s.pixel a b := by
  have hcount : xs.count = (xs.hi - xs.lo + 1).toNat := rfl
  unfold State.fillRow State.pixel
  rw [State.readByte_writeBytes, List.length_replicate]
  by_cases h : b = y ∧ xs.lo ≤ a ∧ (a : Int) ≤ xs.hi
  · have h1 : y * 128 + xs.lo.toNat ≤ b * 128 + a := by omega
    have h2 : b * 128 + a < y * 128 + xs.lo.toNat + xs.count := by omega
    have h3 : b * 128 + a < Bank.canvas.size := by
      show b * 128 + a < 8192
      omega
    have h4 : b * Config.W + a - (y * Config.W + xs.lo.toNat) < xs.count := by
      simp only [Config.W]
      omega
    rw [if_pos ⟨rfl, h1, h2, h3⟩, if_pos h, List.getD_eq_getElem?_getD, List.getElem?_replicate, if_pos h4]
    rfl
  · rw [if_neg h, if_neg]
    rintro ⟨-, h1, h2, -⟩
    apply h
    change y * 128 + xs.lo.toNat ≤ b * 128 + a at h1
    change b * 128 + a < y * 128 + xs.lo.toNat + xs.count at h2
    omega

/-- What a rectangle fill does to a pixel. -/
theorem State.fillRect_pixel (s : State) {xs ys : Interval} (v : Byte) {a b : Nat} (hx : 0 ≤ xs.lo)
    (hx' : xs.hi < 128) (hy : 0 ≤ ys.lo) (ha : a < 128) (hb : b < 64) :
    (s.fillRect xs ys v).pixel a b =
      if xs.lo ≤ a ∧ (a : Int) ≤ xs.hi ∧ ys.lo ≤ b ∧ (b : Int) ≤ ys.hi then v else s.pixel a b := by
  have hcount : ys.count = (ys.hi - ys.lo + 1).toNat := rfl
  have rows : ∀ n : Nat,
      ((List.range n).foldl (fun t j => t.fillRow xs v (ys.lo.toNat + j)) s).pixel a b =
        if xs.lo ≤ a ∧ (a : Int) ≤ xs.hi ∧ ys.lo.toNat ≤ b ∧ b < ys.lo.toNat + n then v
        else s.pixel a b := by
    intro n
    induction n with
    | zero =>
      rw [List.range_zero, List.foldl_nil, if_neg (by omega)]
    | succ n ih =>
      rw [List.range_succ, List.foldl_append, List.foldl_cons, List.foldl_nil,
        State.fillRow_pixel _ v hx hx' ha hb, ih]
      by_cases h : b = ys.lo.toNat + n ∧ xs.lo ≤ a ∧ (a : Int) ≤ xs.hi
      · rw [if_pos h, if_pos (by omega)]
      · rw [if_neg h]
        congr 1
        apply propext
        omega
  unfold State.fillRect
  rw [rows]
  congr 1
  apply propext
  omega

theorem State.plot_pixel_of_inSquare (s : State) (c : Point) {x y : Nat} (hx : x < 128) (hy : y < 64)
    (h : s.inSquare c x y) : (s.plot c).pixel x y = s.plotValue := by
  have hxs := mem_span_iff c.x s.brushSize.toNat Config.W hx
  have hys := mem_span_iff c.y s.brushSize.toNat Config.H hy
  unfold State.plot
  rw [State.fillRect_pixel s _ (span_lo_nonneg _ _ _) (span_hi_lt _ _ _) (span_lo_nonneg _ _ _) hx hy,
    if_pos]
  obtain ⟨h1, h2, h3, h4⟩ := h
  exact ⟨(hxs.mpr ⟨h1, h2⟩).1, (hxs.mpr ⟨h1, h2⟩).2, (hys.mpr ⟨h3, h4⟩).1, (hys.mpr ⟨h3, h4⟩).2⟩

theorem State.plot_pixel_of_not_inSquare (s : State) (c : Point) {x y : Nat} (hx : x < 128) (hy : y < 64)
    (h : ¬ s.inSquare c x y) : (s.plot c).pixel x y = s.pixel x y := by
  have hxs := mem_span_iff c.x s.brushSize.toNat Config.W hx
  have hys := mem_span_iff c.y s.brushSize.toNat Config.H hy
  unfold State.plot
  rw [State.fillRect_pixel s _ (span_lo_nonneg _ _ _) (span_hi_lt _ _ _) (span_lo_nonneg _ _ _) hx hy,
    if_neg]
  rintro ⟨h1, h2, h3, h4⟩
  exact h ⟨(hxs.mp ⟨h1, h2⟩).1, (hxs.mp ⟨h1, h2⟩).2, (hys.mp ⟨h3, h4⟩).1, (hys.mp ⟨h3, h4⟩).2⟩

/-- What plotting a list of points does to a pixel: the new value iff the square of some point covers it. -/
theorem State.foldl_plot_pixel (l : List Point) (s : State) {x y : Nat} (hx : x < 128) (hy : y < 64) :
    ((∃ p ∈ l, s.inSquare p x y) → (l.foldl (fun t p => t.plot p) s).pixel x y = s.plotValue) ∧
      ((∀ p ∈ l, ¬ s.inSquare p x y) → (l.foldl (fun t p => t.plot p) s).pixel x y = s.pixel x y) := by
  induction l generalizing s with
  | nil => exact ⟨by simp, fun _ => rfl⟩
  | cons q l ih =>
    have hf := s.plot_frame q
    obtain ⟨ih1, ih2⟩ := ih (s.plot q)
    simp only [hf.inSquare, hf.plotValue] at ih1 ih2
    simp only [List.foldl_cons]
    refine ⟨fun h => ?_, fun h => ?_⟩
    · by_cases hl : ∃ p ∈ l, s.inSquare p x y
      · exact ih1 hl
      · rw [ih2 (fun p hp hq => hl ⟨p, hp, hq⟩)]
        obtain ⟨p, hp, hq⟩ := h
        rcases List.mem_cons.mp hp with rfl | hp
        · exact s.plot_pixel_of_inSquare p hx hy hq
        · exact absurd ⟨p, hp, hq⟩ hl
    · rw [ih2 (fun p hp => h p (List.mem_cons_of_mem _ hp))]
      exact s.plot_pixel_of_not_inSquare q hx hy (h q List.mem_cons_self)

/-! ### The canonical form of CANVAS -/

theorem State.wf_canvas_fillRow {s : State} (xs : Interval) (v : Byte) (y : Nat)
    (h : Memory.wf .canvas s.canvas = true) : Memory.wf .canvas (s.fillRow xs v y).canvas = true :=
  State.wf_writeBytes (j := .canvas) .canvas _ _ h

theorem State.wf_canvas_foldl {α : Type} {f : State → α → State}
    (hf : ∀ s a, Memory.wf .canvas s.canvas = true → Memory.wf .canvas (f s a).canvas = true)
    (l : List α) {s : State} (h : Memory.wf .canvas s.canvas = true) :
    Memory.wf .canvas (l.foldl f s).canvas = true := by
  induction l generalizing s with
  | nil => exact h
  | cons a l ih => exact ih (hf s a h)

theorem State.wf_canvas_plot {s : State} (c : Point) (h : Memory.wf .canvas s.canvas = true) :
    Memory.wf .canvas (s.plot c).canvas = true :=
  State.wf_canvas_foldl (fun t _ ht => State.wf_canvas_fillRow (s := t) _ _ _ ht) _ h

theorem State.wf_canvas_drawLine {s : State} (a b : Point) (h : Memory.wf .canvas s.canvas = true) :
    Memory.wf .canvas (s.drawLine a b).canvas = true :=
  State.wf_canvas_foldl (fun t p ht => State.wf_canvas_plot (s := t) p ht) _ h

end Sys2Proof.Machine
end

