-- ==== Sys2Proof/Laws/RleCodec.lean ====
section
/-! SUPPORT. What the codec's shared operations give. -/

namespace Sys2Proof.Machine

theorem rlExpand_pair (r v : Byte) (t : List Byte) :
    rlExpand (r :: v :: t) = List.replicate r.toNat v ++ rlExpand t := rfl

/-- The scan, one byte further. -/
theorem rleScan_cons (v b : Byte) (r : Nat) (t : List Byte) :
    rleScan v r (b :: t) =
      if b = v ∧ r < Config.RUN_MAX then rleScan v (r + 1) t else rlePair r v ++ rleScan b 1 t := rfl

/-- Everything DECODE can do: it expands a frame that validates, or raises the code and writes nothing else. -/
theorem execDecode_cases (s : State) :
    (s.validate s.frameLen = .ok ∧
        execDecode s =
          .next (s.writeBytes .packBuf 0 (rlExpand (s.readBytes .rleBuf s.frameLen))).complete) ∨
      (s.validate s.frameLen ≠ .ok ∧ execDecode s = .next (s.raise (s.validate s.frameLen))) := by
  unfold execDecode
  cases h : s.validate s.frameLen
  case ok => exact .inl ⟨rfl, rfl⟩
  all_goals exact .inr ⟨by simp, rfl⟩

end Sys2Proof.Machine
end

