-- ==== Sys2Proof/Laws/Step.lean ====
section
/-! SUPPORT. What a host write, a stored window and a step can do, said once. -/

namespace Sys2Proof.Machine

/-- A stored window changes nothing but the two buffers. -/
theorem State.storeWindow_frame (s : State) (a : Nat) (n : AccessSize) (v : Word) :
    s.storeWindow a n v =
      { s with packBuf := (s.storeWindow a n v).packBuf, rleBuf := (s.storeWindow a n v).rleBuf } := by
  have fold : ∀ m : Nat,
      (List.range m).foldl (fun t k => t.storeByte (a + k) (v.extractLsb' (8 * k) 8)) s =
        { s with
          packBuf := ((List.range m).foldl
            (fun t k => t.storeByte (a + k) (v.extractLsb' (8 * k) 8)) s).packBuf
          rleBuf := ((List.range m).foldl
            (fun t k => t.storeByte (a + k) (v.extractLsb' (8 * k) 8)) s).rleBuf } := by
    intro m
    induction m with
    | zero => rfl
    | succ m ih =>
      rw [storeWindow_fold_succ, ih, State.storeByte_frame]
  exact fold n.bytes

/-- A stored window keeps the canonical form of every memory. -/
theorem State.wf_storeWindow {s : State} {k : Bank} (a : Nat) (n : AccessSize) (v : Word)
    (h : Memory.wf k (s.bank k) = true) : Memory.wf k ((s.storeWindow a n v).bank k) = true := by
  have fold : ∀ m : Nat, Memory.wf k (((List.range m).foldl
      (fun t j => t.storeByte (a + j) (v.extractLsb' (8 * j) 8)) s).bank k) = true := by
    intro m
    induction m with
    | zero => exact h
    | succ m ih =>
      rw [storeWindow_fold_succ]
      exact State.wf_storeByte _ _ ih
  exact fold n.bytes

/-- Everything a host write can do: issue a command, or be ignored, or write RLE_LEN, or store to a window. -/
theorem memWrite_cases (a : Addr) (n : AccessSize) (v : Word) (s : State) :
    (a = 0x0000#16 ∧ n = .four ∧ memWrite a n v s = issueCommand v s) ∨
    memWrite a n v s = .next s ∨
    (a = 0x0014#16 ∧ n = .four ∧ memWrite a n v s = .next { s with rleLen := v.extractLsb' 0 12 }) ∨
    (aligned a n = true ∧ inRegisterSpace a = false ∧
      memWrite a n v s = .next (s.storeWindow a.toNat n v)) := by
  unfold memWrite
  by_cases ha : aligned a n = true
  · by_cases hr : inRegisterSpace a = true
    · by_cases hn : n = .four
      · by_cases h0 : a = 0x0000#16
        · exact .inl ⟨h0, hn, by rw [if_pos ha, if_pos hr, if_pos hn, if_pos h0]⟩
        · by_cases h1 : a = 0x0014#16
          · refine .inr (.inr (.inl ⟨h1, hn, ?_⟩))
            rw [if_pos ha, if_pos hr, if_pos hn, if_neg h0, State.writeRegister, h1]
            rfl
          · have h2 : a.toNat ≠ 0x0014 := fun h => h1 (BitVec.eq_of_toNat_eq h)
            refine .inr (.inl ?_)
            rw [if_pos ha, if_pos hr, if_pos hn, if_neg h0, State.writeRegister, if_neg h2]
      · exact .inr (.inl (by rw [if_pos ha, if_pos hr, if_neg hn]))
    · exact .inr (.inr (.inr ⟨ha, by simpa using hr, by rw [if_pos ha, if_neg hr]⟩))
  · exact .inr (.inl (by rw [if_neg ha]))

/-- What an event other than a CMD write leaves of the state `p` it meets. -/
inductive DataEffect (p : State) : State → Prop where
  /-- an ignored write -/
  | ignored : DataEffect p p
  /-- a read -/
  | read (d : Word) : DataEffect p { p with busData := d }
  /-- a write to RLE_LEN -/
  | length (l : BitVec 12) : DataEffect p { p with rleLen := l }
  /-- a write to a window -/
  | window (a : Nat) (n : AccessSize) (v : Word) : DataEffect p (p.storeWindow a n v)

/-- Everything a step can do: nothing, issue one command, move data of one host access, or reset. -/
theorem step_cases (s : State) :
    (s.pending = [] ∧ step s = .next s) ∨
    (∃ w rest, s.pending = .access (.write32 0x0000#16 w) :: rest ∧
      step s = issueCommand w { s with pending := rest }) ∨
    (∃ x rest t, s.pending = .access x :: rest ∧ step s = .next t ∧
      DataEffect { s with pending := rest } t) ∨
    (∃ cut rest, s.pending = .reset cut :: rest ∧
      step s = .next (({ s with pending := rest } : State).resetEvent cut)) := by
  unfold step serveNext
  cases hp : s.pending with
  | nil => exact .inl ⟨rfl, rfl⟩
  | cons e rest =>
    cases e with
    | reset cut => exact .inr (.inr (.inr ⟨cut, rest, rfl, rfl⟩))
    | access x =>
      have write : ∀ (a : Addr) (n : AccessSize) (v : Word), (a ≠ 0x0000#16 ∨ n ≠ .four) →
          ∃ t, memWrite a n v { s with pending := rest } = .next t ∧
            DataEffect { s with pending := rest } t := by
        intro a n v hne
        rcases memWrite_cases a n v { s with pending := rest } with h | h | h | h
        · exact absurd h.2.1 (hne.resolve_left (fun hn => hn h.1))
        · exact ⟨_, h, .ignored⟩
        · exact ⟨_, h.2.2, .length _⟩
        · exact ⟨_, h.2.2, .window _ _ _⟩
      cases x with
      | read a n => exact .inr (.inr (.inl ⟨_, rest, _, rfl, rfl, .read _⟩))
      | write8 a v =>
        obtain ⟨t, h1, h2⟩ := write a .one (v.setWidth 32) (.inr (by decide))
        exact .inr (.inr (.inl ⟨_, rest, t, rfl, h1, h2⟩))
      | write16 a v =>
        obtain ⟨t, h1, h2⟩ := write a .two (v.setWidth 32) (.inr (by decide))
        exact .inr (.inr (.inl ⟨_, rest, t, rfl, h1, h2⟩))
      | write32 a v =>
        by_cases h0 : a = 0x0000#16
        · subst h0
          exact .inr (.inl ⟨v, rest, rfl, rfl⟩)
        · obtain ⟨t, h1, h2⟩ := write a .four v (.inl h0)
          exact .inr (.inr (.inl ⟨_, rest, t, rfl, h1, h2⟩))

end Sys2Proof.Machine
end

