-- ==== Sys2Proof/Tests/Slice0.lean ====
section
/-! SUPPORT. Tests. Expected values are those of spec 95 (the section is named at each group) or of the encoding
tables of spec 30. The `witness_` theorems show that the hypotheses of a statement can be met. -/

namespace Sys2Proof.Tests

open Sys2Proof.Machine

/-- The next state of an outcome; a state no test expects otherwise. -/
def nextOf (o : Host.Outcome State Fault Refusal) : State :=
  match o with
  | .next t => t
  | .fault _ => { State.reset with resultCode := 15#4 }
  | .refused _ => { State.reset with resultCode := 15#4 }

/-- A state with a stroke active at `(0, 0)` and one host event pending. -/
def drawing : State := { State.reset with strokeActive := true }

/-- A state whose next event writes `w` to CMD. -/
def commanded (w : Word) : State := State.reset.placeCommand w

/-- A state whose RLE_BUF starts with `f` and whose RLE_LEN is `n`. -/
def framed (f : List Byte) (n : BitVec 12) : State := { State.reset.writeBytes .rleBuf 0 f with rleLen := n }

/-! ### WellFormed smoke: each check refuses an operand outside its limits (30 R91) -/

theorem test_wellFormed_beginX_high : (Instr.beginStroke 8192 0).wellFormed = false := by decide
theorem test_wellFormed_beginX_low : (Instr.beginStroke (-8193) 0).wellFormed = false := by decide
theorem test_wellFormed_beginY_high : (Instr.beginStroke 0 8192).wellFormed = false := by decide
theorem test_wellFormed_extendX_low : (Instr.extendStroke (-8193) 0).wellFormed = false := by decide
theorem test_wellFormed_extendY_low : (Instr.extendStroke 0 (-8193)).wellFormed = false := by decide
theorem test_wellFormed_setSize : (Instr.setSize 256).wellFormed = false := by decide
theorem test_wellFormed_setViewW : (Instr.setView 16384 0).wellFormed = false := by decide
theorem test_wellFormed_setViewH : (Instr.setView 0 16384).wellFormed = false := by decide

/-! ### Decoding, one word of every command and every kind of illegal word (95 §2.1) -/

theorem test_decode_nop : decode 0x00000000#32 = .ok .nop := by decide
theorem test_decode_begin : decode 0x18001FFF#32 = .ok (.beginStroke 8191 (-8192)) := by decide
theorem test_decode_extend : decode 0x204B3FFB#32 = .ok (.extendStroke (-5) 300) := by decide
theorem test_decode_end : decode 0x30000000#32 = .ok .endStroke := by decide
theorem test_decode_clear : decode 0x40000000#32 = .ok .clear := by decide
theorem test_decode_setSize : decode 0x500000FF#32 = .ok (.setSize 255) := by decide
theorem test_decode_setMode_draw : decode 0x60000000#32 = .ok (.setMode .draw) := by decide
theorem test_decode_setMode_erase : decode 0x60000001#32 = .ok (.setMode .erase) := by decide
theorem test_decode_setView : decode 0x70200100#32 = .ok (.setView 256 128) := by decide
theorem test_decode_pack : decode 0x80000000#32 = .ok .pack := by decide
theorem test_decode_unpack : decode 0x90000000#32 = .ok .unpack := by decide
theorem test_decode_encode : decode 0xA0000000#32 = .ok .encodeRle := by decide
theorem test_decode_decode : decode 0xB0000000#32 = .ok .decodeRle := by decide
theorem test_decode_illegal_opcodes :
    [0xC0000000#32, 0xD1234567#32, 0xE0000000#32, 0xFFFFFFFF#32].map decode =
      List.replicate 4 (.error .reservedOpcode) := by decide
theorem test_decode_illegal_bits :
    [0x00000001#32, 0x30000001#32, 0x40000100#32, 0x50000100#32, 0x60000002#32, 0x8FFFFFFF#32,
      0xB0000001#32].map decode = List.replicate 7 (.error .reservedBits) := by decide
theorem test_encode_points :
    [Instr.beginStroke 3 4, .beginStroke (-8192) 8191, .beginStroke (-50) (-50), .extendStroke 7 3].map
      encode = [0x10010003#32, 0x17FFE000#32, 0x1FF3BFCE#32, 0x2000C007#32] := by decide
theorem test_decodeTableWord : decodeTableWord 32 0x50000003 = some (.setSize 3) := by decide

/-! ### Shared functions (95 §2.3): mapping, spans, lines -/

theorem test_mapCoord :
    [mapCoord 3 256 128, mapCoord 299 300 128, mapCoord (-1) 256 128, mapCoord 8191 16383 128,
      mapCoord 127 128 64] = [1, 127, 0, 63, 63] := by decide
theorem test_span :
    [span 5 4 128, span 0 10 128, span 127 10 128, span 32 9 64] =
      [⟨3, 6⟩, ⟨0, 4⟩, ⟨122, 127⟩, ⟨28, 36⟩] := by decide
theorem test_line_both_ways :
    linePoints ⟨0, 0⟩ ⟨2, 1⟩ = [⟨0, 0⟩, ⟨1, 1⟩, ⟨2, 1⟩] ∧
      linePoints ⟨2, 1⟩ ⟨0, 0⟩ = [⟨0, 0⟩, ⟨1, 1⟩, ⟨2, 1⟩] := by decide
theorem test_line_falling :
    linePoints ⟨7, 2⟩ ⟨0, 5⟩ =
      [⟨0, 5⟩, ⟨1, 5⟩, ⟨2, 4⟩, ⟨3, 4⟩, ⟨4, 3⟩, ⟨5, 3⟩, ⟨6, 2⟩, ⟨7, 2⟩] := by decide
theorem test_line_steep :
    linePoints ⟨1, 0⟩ ⟨2, 5⟩ = [⟨1, 0⟩, ⟨1, 1⟩, ⟨1, 2⟩, ⟨2, 3⟩, ⟨2, 4⟩, ⟨2, 5⟩] := by decide

/-! ### Commands, one step each (95 §2.2 to §2.5) -/

theorem test_step_nop :
    (nextOf (step { commanded 0x00000000#32 with resultCode := 1#4 })).resultCode = 0#4 := by decide
theorem test_step_illegal_keeps_stroke :
    let t := nextOf (step { commanded 0x30000001#32 with strokeActive := true })
    t.resultCode = 1#4 ∧ t.strokeActive = true := by decide
theorem test_step_begin :
    let t := nextOf (step (commanded 0x10010003#32))
    t.pixel 3 4 = 255#8 ∧ t.pixel 4 4 = 0#8 ∧ t.strokeWord = 0x00040301#32 := by decide
theorem test_step_begin_at_the_corner :
    let t := nextOf (step { commanded 0x100FC07F#32 with brushSize := 4#4 })
    t.canvas.length = 9 ∧ t.pixel 125 61 = 255#8 ∧ t.pixel 124 61 = 0#8 := by decide
theorem test_step_extend :
    let t := nextOf (step { drawing with pending := (commanded 0x20004002#32).pending })
    t.canvas = [(0, 255#8), (129, 255#8), (130, 255#8)] ∧ t.strokeWord = 0x00010201#32 := by decide
theorem test_step_extend_without_stroke :
    (nextOf (step (commanded 0x20024009#32))).canvas = [] := by decide
theorem test_step_end :
    (nextOf (step { drawing with
      pending := (commanded 0x30000000#32).pending, lastX := 3#7, lastY := 4#6 })).strokeWord =
      0x00040300#32 := by decide
theorem test_step_clear :
    let t := nextOf (step { drawing with
      pending := (commanded 0x40000000#32).pending, canvas := [(0, 255#8), (8191, 255#8)],
      brushMode := .draw })
    t.pixel 0 0 = 0#8 ∧ t.strokeActive = true := by decide +kernel
theorem test_step_setSize :
    (nextOf (step (commanded 0x50000000#32))).brushWord = 0x00000001#32 ∧
      (nextOf (step (commanded 0x500000C8#32))).brushWord = 0x0000000A#32 := by decide
theorem test_step_setMode : (nextOf (step (commanded 0x60000001#32))).brushWord = 0x00000101#32 := by decide
theorem test_step_setView :
    (nextOf (step (commanded 0x70200100#32))).viewWord = 0x00800100#32 ∧
      (nextOf (step (commanded 0x70000000#32))).viewWord = 0x00010001#32 := by decide
theorem test_step_pack :
    let t := nextOf (step { commanded 0x80000000#32 with canvas := [(7, 255#8), (515, 255#8)] })
    t.readByte .packBuf 0 = 0x80#8 ∧ t.readByte .packBuf 64 = 0x08#8 := by decide +kernel
theorem test_threshold : overThreshold 127#8 = false ∧ overThreshold 128#8 = true := by decide
theorem test_step_unpack :
    let t := nextOf (step { commanded 0x90000000#32 with packBuf := [(0, 0x81#8), (1, 0x01#8)] })
    t.pixel 0 0 = 255#8 ∧ t.pixel 7 0 = 255#8 ∧ t.pixel 8 0 = 255#8 := by decide +kernel
theorem test_rlEncode_uniform :
    rlEncode (List.replicate 1024 0xFF#8) =
      [255#8, 255#8, 255#8, 255#8, 255#8, 255#8, 255#8, 255#8, 4#8, 255#8] := by decide +kernel
theorem test_rlEncode_runs :
    rlEncode (List.replicate 256 0xAA#8 ++ List.replicate 3 0x00#8) =
      [255#8, 0xAA#8, 1#8, 0xAA#8, 3#8, 0#8] := by decide +kernel
theorem test_decode_ok :
    let s := framed [16#8, 255#8, 255#8, 0#8, 255#8, 0#8, 255#8, 0#8, 243#8, 0#8] 10#12
    let t := nextOf (execDecode s)
    t.resultCode = 0#4 ∧ t.readByte .packBuf 15 = 255#8 ∧ t.readByte .packBuf 16 = 0#8 := by decide
theorem test_decode_failures :
    let f : List Byte := [255#8, 0#8, 255#8, 0#8, 0#8, 7#8, 255#8, 0#8, 255#8, 0#8, 4#8, 0#8]
    [(framed f 12#12), (framed f 9#12), (framed f 2049#12), (framed f 0#12), (framed f 4#12)].map
      (fun s => (nextOf (execDecode s)).resultCode) = [4#4, 3#4, 2#4, 5#4, 5#4] := by decide

/-! ### The host bus (95 §2.6, §2.7) -/

theorem test_bus_little_endian :
    let s := framed [255#8, 255#8, 4#8, 255#8] 0#12
    s.memRead 0x2000#16 .four = 0xFF04FFFF#32 ∧ s.memRead 0x2002#16 .two = 0xFF04#32 ∧
      s.memRead 0x2001#16 .two = 0#32 := by decide
theorem test_bus_write :
    let t := nextOf (memWrite 0x1000#16 .four 0x12345678#32 State.reset)
    t.packBuf = [(0, 0x78#8), (1, 0x56#8), (2, 0x34#8), (3, 0x12#8)] := by decide
theorem test_bus_registers_at_reset :
    [0x0000#16, 0x0004#16, 0x0008#16, 0x000C#16, 0x0010#16, 0x0014#16, 0x0018#16].map
      (fun a => State.reset.memRead a .four) =
      [0#32, 0#32, 1#32, 0#32, 0x00400080#32, 0#32, 0#32] := by decide
theorem test_bus_rleLen :
    (nextOf (memWrite 0x0014#16 .four 0xFFFFF00A#32 State.reset)).rleLenWord = 0x0000000A#32 := by decide

/-- Every command of the table runs as the first instruction after reset. -/
theorem test_first_instruction_runs :
    [0x00000000, 0x10010003, 0x20004002, 0x30000000, 0x40000000, 0x50000003, 0x60000001, 0x70200100,
      0x80000000, 0x90000000, 0xA0000000, 0xB0000000].all
      (fun w => match step (State.reset.withFetchWord 32 w) with
        | .next _ => true
        | .fault _ => false
        | .refused _ => false) = true := by decide

/-! ### Witnesses: the hypotheses of each statement that has any, clause by clause, at boundary values -/

theorem witness_DecodeOfEncodeIsTheCommand :
    (Instr.beginStroke (-8192) 8191).wellFormed = true ∧ (Instr.extendStroke 8191 (-8192)).wellFormed = true ∧
      (Instr.setSize 255).wellFormed = true ∧ (Instr.setView 16383 0).wellFormed = true := by decide
theorem witness_EncodeOfDecodedWordIsTheWord : decode 0x7FFFFFFF#32 = .ok (.setView 16383 16383) := by decide
theorem witness_OpcodeMapRowSelectsTheCommand :
    ∃ r ∈ opcodeMap, r.matchesWord 0xB0000000#32 = true ∧ r.mnemonic = "DECODE" := by decide
theorem witness_ReservedWords :
    reservedWord 0xC0000000#32 ∧ reservedWord 0x00000001#32 ∧ reservedWord 0x50000100#32 ∧
      reservedWord 0x60000002#32 ∧ ¬ reservedWord 0xB0000000#32 ∧ ¬ reservedWord 0x500000FF#32 ∧
      (0x7FFFFFFF#32).toNat / 2 ^ 28 ∈ [0x1, 0x2, 0x7] := by
  unfold reservedWord
  decide
theorem witness_StepRunsTheDecodedCommand :
    (commanded 0x10010003#32).pending = [.access (.write32 0x0000#16 0x10010003#32)] ∧
      decode 0x10010003#32 = .ok (.beginStroke 3 4) := by decide
theorem witness_AssembledCommandRunsAsItself :
    (State.reset.withProgram [Access.command (.setSize 255)]).pending =
      [.access (Access.command (.setSize 255))] ∧ (Instr.setSize 255).wellFormed = true := by decide
theorem witness_StepOnReservedWordWritesOnlyResult :
    (commanded 0xFFFFFFFF#32).pending = [.access (.write32 0x0000#16 0xFFFFFFFF#32)] ∧
      reservedWord 0xFFFFFFFF#32 := by
  unfold reservedWord
  decide
theorem witness_IdleStepChangesNothing : State.reset.pending = [] := by decide
/-- FailedCommandWritesOnlyResult and EarlierResultAffectsNoCommand have no hypothesis on the state; this meets
the inner ones of the first: a command that ends with a code other than OK and ILLEGAL. -/
theorem witness_FailedCommandWritesOnlyResult :
    issueCommand 0xB0000000#32 State.reset = .next (State.reset.raise .rleLength) ∧
      (State.reset.raise .rleLength).resultCode ≠ 0#4 ∧ (State.reset.raise .rleLength).resultCode ≠ 1#4 :=
  ⟨rfl, by decide, by decide⟩
theorem witness_NopWritesOnlyOk : opcodeOf 0x00000001#32 = 0x0#4 ∧ 0x00000001#32 ≠ 0x00000000#32 := by decide
theorem witness_OnlyFourCommandsWriteTheCanvas :
    step (commanded 0x10000000#32) = .next (nextOf (step (commanded 0x10000000#32))) ∧
      (nextOf (step (commanded 0x10000000#32))).canvas ≠ (commanded 0x10000000#32).canvas ∧
      (nextOf (step { State.reset with canvas := [(0, 255#8)], pending := [.reset none] })).canvas ≠
        [(0, 255#8)] :=
  ⟨rfl, by decide, by decide⟩
theorem witness_CommandsChangeOnlyTheirOwnState_memories :
    (nextOf (exec .pack State.reset)).packBuf ≠ State.reset.packBuf ∧
      (nextOf (exec .decodeRle
        (framed [255#8, 0#8, 255#8, 0#8, 255#8, 0#8, 255#8, 0#8, 4#8, 0#8] 10#12))).packBuf ≠ [] ∧
      (nextOf (exec .encodeRle
        { State.reset with packBuf := (List.range 1024).map (fun i => (i, 7#8)) })).rleBuf ≠
        State.reset.rleBuf := by
  decide +kernel
theorem witness_CommandsChangeOnlyTheirOwnState_registers :
    (nextOf (exec (.setSize 255) State.reset)).brushSize ≠ State.reset.brushSize ∧
      (nextOf (exec (.setMode .erase) State.reset)).brushMode ≠ State.reset.brushMode ∧
      (nextOf (exec (.setView 0 0) State.reset)).viewW ≠ State.reset.viewW ∧
      (nextOf (exec (.beginStroke 127 63) State.reset)).strokeActive ≠ State.reset.strokeActive ∧
      (nextOf (exec .endStroke drawing)).strokeActive ≠ drawing.strokeActive ∧
      (nextOf (exec (.beginStroke 127 63) State.reset)).lastX ≠ State.reset.lastX := by decide
theorem witness_EveryStepKeepsTheMachineLegal :
    drawing.Legal ∧ step drawing = .next drawing :=
  ⟨⟨⟨rfl, rfl, rfl⟩, fun _ _ _ _ => .inr rfl, ⟨by decide, by decide, by decide, by decide, by decide⟩⟩, rfl⟩
theorem witness_MappedPointIsTheClampedFloor :
    State.reset.viewW ≠ 0#14 ∧ State.reset.viewH ≠ 0#14 ∧ State.reset.viewW = 128#14 ∧
      State.reset.viewH = 64#14 ∧ State.reset.mapX 127 = 127 ∧ State.reset.mapY 63 = 63 ∧
      State.reset.mapX 0 = 0 := by decide
theorem witness_SpanStaysOnTheAxisAndContainsItsCentre :
    (0 : Int) ≤ 127 ∧ (127 : Int) < (128 : Nat) ∧ (1 : Nat) ≤ 10 ∧ (0 : Int) ≤ 5 - (10 : Nat) / 2 ∧
      (5 : Int) - (10 : Nat) / 2 + (10 : Nat) ≤ (128 : Nat) := by decide
theorem witness_BeginPlotsOneSquareAndStartsAStroke :
    opcodeOf 0x1FFFFFFF#32 = 0x1#4 ∧ State.reset.inSquare ⟨State.reset.mapX 200, State.reset.mapY 63⟩ 127 63 ∧
      ¬ State.reset.inSquare ⟨State.reset.mapX 200, State.reset.mapY 63⟩ 126 63 := by
  unfold State.inSquare
  decide
theorem witness_ExtendDrawsTheLineFromTheLastPoint :
    opcodeOf 0x204B3FFB#32 = 0x2#4 ∧ State.reset.strokeActive = false ∧ drawing.strokeActive = true ∧
      (⟨1, 1⟩ ∈ linePoints drawing.lastPoint ⟨drawing.mapX 2, drawing.mapY 1⟩ ∧
        drawing.inSquare ⟨1, 1⟩ 1 1) ∧
      (∀ p ∈ linePoints drawing.lastPoint ⟨drawing.mapX 2, drawing.mapY 1⟩, ¬ drawing.inSquare p 127 63) := by
  unfold State.inSquare
  decide
theorem witness_OneWordCommands_reservedBits :
    (opcodeOf 0x30000001#32 = 0x3#4 ∧ 0x30000001#32 ≠ 0x30000000#32) ∧
      (opcodeOf 0x40000100#32 = 0x4#4 ∧ 0x40000100#32 ≠ 0x40000000#32) ∧
      (opcodeOf 0x8FFFFFFF#32 = 0x8#4 ∧ 0x8FFFFFFF#32 ≠ 0x80000000#32) ∧
      (opcodeOf 0x90000001#32 = 0x9#4 ∧ 0x90000001#32 ≠ 0x90000000#32) ∧
      (opcodeOf 0xA8000000#32 = 0xA#4 ∧ 0xA8000000#32 ≠ 0xA0000000#32) ∧
      (opcodeOf 0xB0000001#32 = 0xB#4 ∧ 0xB0000001#32 ≠ 0xB0000000#32) := by decide
theorem witness_SetSizeStoresTheClampedSize :
    (opcodeOf 0x500000FF#32 = 0x5#4 ∧ (0x500000FF#32).extractLsb' 8 20 = 0#20) ∧
      (opcodeOf 0x50000100#32 = 0x5#4 ∧ (0x50000100#32).extractLsb' 8 20 ≠ 0#20) := by decide
theorem witness_SetModeStoresTheMode :
    (opcodeOf 0x60000001#32 = 0x6#4 ∧ (0x60000001#32).extractLsb' 1 27 = 0#27) ∧
      (opcodeOf 0x60000002#32 = 0x6#4 ∧ (0x60000002#32).extractLsb' 1 27 ≠ 0#27) := by decide
theorem witness_SetViewStoresTheCorrectedFields :
    (0 : Nat) ≤ 16383 ∧ (16383 : Nat) ≤ 16383 ∧ opcodeOf 0x7FFFFFFF#32 = 0x7#4 := by decide
/-- The last clause of LineIsSymmetricConnectedAndExact, at opposite corners of the canvas. -/
theorem witness_LineIsSymmetricConnectedAndExact :
    (0 : Int) ≤ 0 ∧ (127 : Int) ≤ 127 ∧ (63 : Int) ≤ 63 ∧
      (linePoints ⟨0, 63⟩ ⟨127, 0⟩).length = 128 := by decide +kernel
theorem witness_LinePointsStayWithinHalfAPixel :
    (⟨1, 1⟩ : Point) ∈ linePoints ⟨2, 1⟩ ⟨0, 0⟩ := by decide
theorem witness_StrokeSegmentIsDirectionIndependent : State.reset.Canonical := ⟨rfl, rfl, rfl⟩
theorem witness_UnpackAfterPackRestoresTheCanvas : drawing.TwoValued ∧ drawing.Canonical :=
  ⟨fun _ _ _ _ => .inr rfl, rfl, rfl, rfl⟩
theorem witness_PackCountsTheOnPixels :
    (∀ x y : Nat, x < 128 → y < 64 → State.reset.pixel x y = drawing.pixel x y) ∧ drawing.TwoValued :=
  ⟨fun _ _ _ _ => rfl, fun _ _ _ _ => .inr rfl⟩
theorem witness_EncodedFramesAreCanonical :
    (List.replicate 1024 0#8).length = 1024 ∧
      (∀ i < 1023, (List.replicate 1024 0#8).getD i 0#8 = (List.replicate 1024 0#8).getD (i + 1) 0#8) ∧
      ((List.range 1024).map (BitVec.ofNat 8)).length = 1024 ∧
      (∀ i < 1023, ((List.range 1024).map (BitVec.ofNat 8)).getD i 0#8 ≠
        ((List.range 1024).map (BitVec.ofNat 8)).getD (i + 1) 0#8) := by
  refine ⟨List.length_replicate, fun i h => ?_, by simp, fun i h => ?_⟩
  · rw [List.getD_eq_getElem?_getD, List.getD_eq_getElem?_getD, List.getElem?_replicate, List.getElem?_replicate,
      if_pos (by omega), if_pos (by omega)]
  · have h1 : i < 1024 := by omega
    have h2 : i + 1 < 1024 := by omega
    simp only [List.getD_eq_getElem?_getD, List.getElem?_map, List.getElem?_range h1, List.getElem?_range h2,
      Option.map_some, Option.getD_some]
    intro he
    have := congrArg BitVec.toNat he
    simp only [BitVec.toNat_ofNat] at this
    omega
theorem witness_EncodeUndoesExpandOnCanonicalFrames :
    canonicalPairs [(255#8, 1#8), (255#8, 1#8), (4#8, 1#8), (1#8, 2#8)] := by
  simp [canonicalPairs]
theorem witness_DecodeExpandsOrReportsOneCode_ok :
    let s := framed [255#8, 0#8, 255#8, 0#8, 255#8, 0#8, 255#8, 0#8, 4#8, 0#8] 10#12
    s.rleLen.toNat ≤ 2048 ∧ s.rleLen.toNat % 2 = 0 ∧
      (∀ k < s.rleLen.toNat / 2, s.readByte .rleBuf (2 * k) ≠ 0#8) ∧
      ((List.range (s.rleLen.toNat / 2)).map (fun k => (s.readByte .rleBuf (2 * k)).toNat)).sum = 1024 := by
  decide +kernel
theorem witness_DecodeExpandsOrReportsOneCode_failures :
    2048 < (framed [] 2049#12).rleLen.toNat ∧
      (framed [] 2047#12).rleLen.toNat ≤ 2048 ∧ (framed [] 2047#12).rleLen.toNat % 2 = 1 ∧
      (∃ k < (framed [0#8, 9#8] 2#12).rleLen.toNat / 2,
        (framed [0#8, 9#8] 2#12).readByte .rleBuf (2 * k) = 0#8) ∧
      (∀ k < (framed [] 0#12).rleLen.toNat / 2, (framed [] 0#12).readByte .rleBuf (2 * k) ≠ 0#8) ∧
      ((List.range ((framed [] 0#12).rleLen.toNat / 2)).map
        (fun k => ((framed [] 0#12).readByte .rleBuf (2 * k)).toNat)).sum ≠ 1024 := by decide
theorem witness_WindowReadsAreLittleEndian :
    0x1000 ≤ (0x1000#16).toNat ∧ (0xFFFE#16).toNat % 2 = 0 ∧ (0xFFFC#16).toNat % 4 = 0 ∧
      0x1000 ≤ (0xFFFF#16).toNat := by decide
theorem witness_MisalignedAccess : (0x1001#16).toNat % 2 ≠ 0 ∧ (0x0002#16).toNat % 4 ≠ 0 := by decide
theorem witness_RegisterSpaceTakesOnlyWordAccesses :
    (0x0000#16).toNat < 0x1000 ∧ (0x0014#16).toNat < 0x1000 ∧ (0x0FFF#16).toNat < 0x1000 ∧
      0x0FFF#16 ≠ 0x0000#16 ∧ 0x0FFF#16 ≠ 0x0014#16 := by decide
theorem witness_CanvasWindowIsReadOnly :
    canvasAddress (0x4000#16).toNat ∧ canvasAddress (0x5FFF#16).toNat ∧ (127 < 128 ∧ 63 < 64) := by
  unfold canvasAddress
  decide
theorem witness_ReservedAddresses :
    reservedAddress (0x0018#16).toNat ∧ reservedAddress (0x1400#16).toNat ∧ reservedAddress (0x3FFF#16).toNat ∧
      reservedAddress (0xFFFF#16).toNat := by
  unfold reservedAddress
  decide
theorem witness_BufferWrites :
    (bufferAddress (0x1000#16).toNat ∧ aligned 0x1000#16 .four = true) ∧
      (bufferAddress (0x13FF#16).toNat ∧ aligned 0x13FF#16 .one = true) ∧
      (bufferAddress (0x27FE#16).toNat ∧ aligned 0x27FE#16 .two = true) := by
  unfold bufferAddress
  decide
theorem witness_BufferWindowBounds : (0 < 1024 ∧ 1023 < 1024) ∧ (0 < 2048 ∧ 2047 < 2048) ∧
    State.reset.byteAt (0x1000 + 1023) = State.reset.readByte .packBuf 1023 ∧
    State.reset.byteAt (0x2000 + 2047) = State.reset.readByte .rleBuf 2047 :=
  ⟨by decide, by decide, rfl, rfl⟩
theorem witness_HostWriteIsOneMemWriteOfItsSize :
    (State.reset.withProgram [.write8 0xFFFF#16 255#8]).pending = [.access (.write8 0xFFFF#16 255#8)] ∧
      (State.reset.withProgram [.write16 0x0000#16 1#16]).pending = [.access (.write16 0x0000#16 1#16)] ∧
      (State.reset.withProgram [Access.setLen 10#32]).pending = [.access (.write32 0x0014#16 10#32)] := by decide
theorem witness_WrBytesStoresTheSequence :
    (State.reset.withProgram (Access.wrBytes 0x13FE#16 [1#8, 2#8])).pending =
        (Access.wrBytes 0x13FE#16 [1#8, 2#8]).map HostEvent.access ++ [] ∧
      0x1000 ≤ (0x13FE#16).toNat ∧ (0x13FE#16).toNat + 2 ≤ 0x1400 ∧
      (State.reset.withProgram (Access.wrBytes 0x2000#16 [])).pending = [] ∧
      0x2000 ≤ (0x2000#16).toNat ∧ (0x2000#16).toNat + 0 ≤ 0x2800 := by decide
theorem witness_HostReadChangesNothing :
    (State.reset.withProgram [Access.result]).pending = [.access (.read 0x0004#16 .four)] := by decide
theorem witness_ResetRestoresTheResetState :
    ({ drawing with pending := [.reset none] } : State).pending = [.reset none] ∧
      ({ drawing with pending := [.reset (some (.read 0x4000#16 .one))] } : State).pending =
        [.reset (some (.read 0x4000#16 .one))] ∧
      (∀ a n, (some (Access.write8 0x1000#16 0#8)) ≠ some (.read a n)) :=
  ⟨rfl, rfl, fun _ _ h => by cases h⟩

end Sys2Proof.Tests
end

section
/-! What one step does when the host's order holds no event (spec 00 R13, 40 R101, 60 R222). -/

namespace Sys2Proof.Proofs

open Sys2Proof Sys2Proof.Machine

/-- Settles O9: `step` serves the head of the queue, and on the empty queue it takes its idle branch. -/
theorem idleStepChangesNothing : Obligations.IdleStepChangesNothing := by
  intro s hidle
  rw [step, serveNext, hidle]

end Sys2Proof.Proofs
end

section
/-! Facts about the state and its registers that the statements on spec 10 use: which pieces of state each command
writes, and the legality of a state update by update. -/

namespace Sys2Proof.Machine

/-! ### Issuing a command -/

theorem issueCommand_of_ok {w : Word} {i : Instr} (h : decode w = .ok i) (s : State) :
    issueCommand w s = exec i s := by
  rw [issueCommand, h]

theorem issueCommand_of_error {w : Word} {e : DecodeError} (h : decode w = .error e) (s : State) :
    issueCommand w s = .next (s.raise .illegal) := by
  rw [issueCommand, h, illegalCommand]

/-! ### The pieces of state a command writes -/

/-- The pieces of state each command may write (10 R24 to R32), the values of memories, LAST and codes left open:
the second argument is the command, the third the state it answers. -/
inductive CommandEffect (s : State) : Instr → State → Prop where
  | nop : CommandEffect s .nop { s with resultCode := 0#4 }
  | beginStroke (px py : Int) (m : Memory) (x : BitVec 7) (y : BitVec 6) :
      CommandEffect s (.beginStroke px py)
        { s with canvas := m, strokeActive := true, lastX := x, lastY := y, resultCode := 0#4 }
  | extendStroke (px py : Int) (m : Memory) (x : BitVec 7) (y : BitVec 6) :
      CommandEffect s (.extendStroke px py) { s with canvas := m, lastX := x, lastY := y, resultCode := 0#4 }
  | endStroke : CommandEffect s .endStroke { s with strokeActive := false, resultCode := 0#4 }
  | clear (m : Memory) : CommandEffect s .clear { s with canvas := m, resultCode := 0#4 }
  | setSize (sz : Nat) (b : BitVec 4) : CommandEffect s (.setSize sz) { s with brushSize := b, resultCode := 0#4 }
  | setMode (md : BrushMode) : CommandEffect s (.setMode md) { s with brushMode := md, resultCode := 0#4 }
  | setView (vw vh : Nat) (v w : BitVec 14) :
      CommandEffect s (.setView vw vh) { s with viewW := v, viewH := w, resultCode := 0#4 }
  | pack (m : Memory) : CommandEffect s .pack { s with packBuf := m, resultCode := 0#4 }
  | unpack (m : Memory) : CommandEffect s .unpack { s with canvas := m, resultCode := 0#4 }
  | encodeRle (m : Memory) (l : BitVec 12) :
      CommandEffect s .encodeRle { s with rleBuf := m, rleLen := l, resultCode := 0#4 }
  | decodeRle (m : Memory) (c : BitVec 4) : CommandEffect s .decodeRle { s with packBuf := m, resultCode := c }

/-- A command answers a next state that differs only in the pieces of state the command may write. -/
theorem exec_effect (i : Instr) (s : State) : ∃ t, exec i s = .next t ∧ CommandEffect s i t := by
  cases i with
  | nop => exact ⟨_, rfl, .nop⟩
  | beginStroke px py =>
    refine ⟨_, rfl, ?_⟩
    rw [s.plot_frame (s.mapPoint px py)]
    exact .beginStroke px py _ _ _
  | extendStroke px py =>
    by_cases h : s.strokeActive = true
    · refine ⟨_, if_pos h, ?_⟩
      rw [s.drawLine_frame s.lastPoint (s.mapPoint px py)]
      exact .extendStroke px py _ _ _
    · exact ⟨_, if_neg h, .extendStroke px py s.canvas s.lastX s.lastY⟩
  | endStroke => exact ⟨_, rfl, .endStroke⟩
  | clear => exact ⟨_, rfl, .clear _⟩
  | setSize sz => exact ⟨_, rfl, .setSize sz _⟩
  | setMode md => exact ⟨_, rfl, .setMode md⟩
  | setView vw vh => exact ⟨_, rfl, .setView vw vh _ _⟩
  | pack => exact ⟨_, rfl, .pack _⟩
  | unpack => exact ⟨_, rfl, .unpack _⟩
  | encodeRle => exact ⟨_, rfl, .encodeRle _ _⟩
  | decodeRle =>
    rcases execDecode_cases s with ⟨-, h⟩ | ⟨-, h⟩
    · exact ⟨_, h, .decodeRle _ _⟩
    · exact ⟨_, h, .decodeRle s.packBuf _⟩

theorem commandEffect_of_exec {i : Instr} {s t : State} (h : exec i s = .next t) : CommandEffect s i t := by
  obtain ⟨t', ht', heffect⟩ := exec_effect i s
  rw [h] at ht'
  cases ht'
  exact heffect

theorem CommandEffect.mnemonic_of_canvas_ne {i : Instr} {s t : State} (h : CommandEffect s i t)
    (hne : t.canvas ≠ s.canvas) : i.mnemonic ∈ ["BEGIN", "EXTEND", "CLEAR", "UNPACK"] := by
  cases h with
  | beginStroke | extendStroke | clear | unpack => simp [Instr.mnemonic]
  | _ => exact absurd rfl hne

theorem DataEffect.canvas_eq {p t : State} (h : DataEffect p t) : t.canvas = p.canvas := by
  cases h with
  | window a n v => rw [p.storeWindow_frame]
  | _ => rfl

/-! ### Legal states, update by update -/

theorem ResultCode.code_toNat_le (c : ResultCode) : c.code.toNat ≤ 5 := by
  cases c <;> decide

theorem State.LegalRegisters.congr {s t : State} (h : s.LegalRegisters) (hsize : t.brushSize = s.brushSize)
    (hw : t.viewW = s.viewW) (hh : t.viewH = s.viewH) (hcode : t.resultCode = s.resultCode) :
    t.LegalRegisters where
  sizeMin := hsize ▸ h.sizeMin
  sizeMax := hsize ▸ h.sizeMax
  viewW := hw ▸ h.viewW
  viewH := hh ▸ h.viewH
  code := hcode ▸ h.code

/-- Legality looks at the three memories and at the registers of R26, R28 and R29. -/
theorem State.Legal.of_memories_eq {s t : State} (h : s.Legal) (hcanvas : t.canvas = s.canvas)
    (hpack : t.packBuf = s.packBuf) (hrle : t.rleBuf = s.rleBuf) (hreg : t.LegalRegisters) : t.Legal where
  canonical := ⟨hcanvas ▸ h.canonical.canvas, hpack ▸ h.canonical.packBuf, hrle ▸ h.canonical.rleBuf⟩
  twoValued x y hx hy := by
    rw [State.pixel_congr hcanvas]
    exact h.twoValued x y hx hy
  registers := hreg

/-- A state with the same memories, BRUSH.SIZE, VIEW and RESULT as a legal one is legal. -/
theorem State.Legal.congr {s t : State} (h : s.Legal) (hcanvas : t.canvas = s.canvas)
    (hpack : t.packBuf = s.packBuf) (hrle : t.rleBuf = s.rleBuf) (hsize : t.brushSize = s.brushSize)
    (hw : t.viewW = s.viewW) (hh : t.viewH = s.viewH) (hcode : t.resultCode = s.resultCode) : t.Legal :=
  h.of_memories_eq hcanvas hpack hrle (h.registers.congr hsize hw hh hcode)

theorem State.Legal.setResult {s : State} (h : s.Legal) (c : ResultCode) : (s.setResult c).Legal :=
  h.of_memories_eq rfl rfl rfl { h.registers with code := c.code_toNat_le }

theorem State.Legal.complete {s : State} (h : s.Legal) : s.complete.Legal := h.setResult .ok

theorem State.Legal.raise {s : State} (h : s.Legal) (c : ResultCode) : (s.raise c).Legal := h.setResult c

theorem State.Legal.setActive {s : State} (h : s.Legal) (b : Bool) : (s.setActive b).Legal :=
  h.congr rfl rfl rfl rfl rfl rfl rfl

theorem State.Legal.setLast {s : State} (h : s.Legal) (p : Point) : (s.setLast p).Legal :=
  h.congr rfl rfl rfl rfl rfl rfl rfl

theorem State.Legal.setPending {s : State} (h : s.Legal) (l : List HostEvent) :
    ({ s with pending := l } : State).Legal :=
  h.congr rfl rfl rfl rfl rfl rfl rfl

theorem State.Legal.setRleLen {s : State} (h : s.Legal) (l : BitVec 12) :
    ({ s with rleLen := l } : State).Legal :=
  h.congr rfl rfl rfl rfl rfl rfl rfl

/-- A write keeps the state legal if, to CANVAS, it writes only on and off pixels. -/
theorem State.Legal.writeBytes {s : State} (h : s.Legal) (k : Bank) (base : Nat) (bs : List Byte)
    (hbs : k = .canvas → ∀ b ∈ bs, b = Config.LUM_ON ∨ b = Config.LUM_OFF) :
    (s.writeBytes k base bs).Legal where
  canonical :=
    ⟨State.wf_writeBytes (j := .canvas) k base bs h.canonical.canvas,
      State.wf_writeBytes (j := .packBuf) k base bs h.canonical.packBuf,
      State.wf_writeBytes (j := .rleBuf) k base bs h.canonical.rleBuf⟩
  twoValued x y hx hy := by
    rw [State.pixel, State.readByte_writeBytes]
    split
    next hin =>
      obtain ⟨hk, hlo, hhi, -⟩ := hin
      have hlt : y * Config.W + x - base < bs.length := by omega
      rw [List.getD_eq_getElem _ _ hlt]
      exact hbs hk.symm _ (List.getElem_mem hlt)
    next => exact h.twoValued x y hx hy
  registers := h.registers.congr (by simp) (by simp) (by simp) (by simp)

/-! ### What the commands write to CANVAS is on or off -/

theorem State.plotValue_on_or_off (s : State) : s.plotValue = Config.LUM_ON ∨ s.plotValue = Config.LUM_OFF := by
  unfold State.plotValue
  cases s.brushMode
  · exact .inl rfl
  · exact .inr rfl

theorem State.unpackedPixels_on_or_off (s : State) :
    ∀ b ∈ s.unpackedPixels, b = Config.LUM_ON ∨ b = Config.LUM_OFF := by
  intro b hb
  obtain ⟨e, -, rfl⟩ := List.mem_map.mp hb
  exact ite_eq_or_eq _ _ _

theorem State.Legal.fillRow {s : State} (h : s.Legal) (xs : Interval) {v : Byte}
    (hv : v = Config.LUM_ON ∨ v = Config.LUM_OFF) (y : Nat) : (s.fillRow xs v y).Legal :=
  h.writeBytes .canvas _ _ fun _ b hb => by rwa [List.eq_of_mem_replicate hb]

theorem State.Legal.plot {s : State} (h : s.Legal) (c : Point) : (s.plot c).Legal :=
  List.foldlRecOn _ _ h fun _ ht _ _ => ht.fillRow _ s.plotValue_on_or_off _

theorem State.Legal.drawLine {s : State} (h : s.Legal) (a b : Point) : (s.drawLine a b).Legal :=
  List.foldlRecOn _ _ h fun _ ht p _ => ht.plot p

/-- Every command keeps the machine legal. -/
theorem exec_keeps_legal (i : Instr) {s t : State} (h : s.Legal) (hexec : exec i s = .next t) : t.Legal := by
  cases i with
  | nop =>
    cases hexec
    exact h.complete
  | beginStroke px py =>
    cases hexec
    exact (((h.plot _).setActive true).setLast _).complete
  | extendStroke px py =>
    by_cases hactive : s.strokeActive = true
    · cases (if_pos hactive).symm.trans hexec
      exact ((h.drawLine _ _).setLast _).complete
    · cases (if_neg hactive).symm.trans hexec
      exact h.complete
  | endStroke =>
    cases hexec
    exact (h.setActive false).complete
  | clear =>
    cases hexec
    exact (h.writeBytes .canvas _ _ fun _ _ hb => .inr (List.eq_of_mem_replicate hb)).complete
  | setSize sz =>
    cases hexec
    have hsize := clampSize_toNat sz
    refine (h.of_memories_eq rfl rfl rfl { h.registers with sizeMin := ?_, sizeMax := ?_ } :
      ({ s with brushSize := clampSize sz } : State).Legal).complete
    · show 1 ≤ (clampSize sz).toNat
      omega
    · show (clampSize sz).toNat ≤ 10
      omega
  | setMode md =>
    cases hexec
    exact (h.congr rfl rfl rfl rfl rfl rfl rfl : ({ s with brushMode := md } : State).Legal).complete
  | setView vw vh =>
    cases hexec
    exact (h.of_memories_eq rfl rfl rfl
      { h.registers with viewW := viewField_ne_zero vw, viewH := viewField_ne_zero vh } :
      ({ s with viewW := viewField vw, viewH := viewField vh } : State).Legal).complete
  | pack =>
    cases hexec
    exact (h.writeBytes .packBuf _ _ (fun hk => nomatch hk)).complete
  | unpack =>
    cases hexec
    exact (h.writeBytes .canvas _ _ fun _ => s.unpackedPixels_on_or_off).complete
  | encodeRle =>
    cases hexec
    exact ((h.writeBytes .rleBuf _ _ (fun hk => nomatch hk)).setRleLen _).complete
  | decodeRle =>
    rcases execDecode_cases s with ⟨-, hd⟩ | ⟨-, hd⟩
    · cases hd.symm.trans hexec
      exact (h.writeBytes .packBuf _ _ (fun hk => nomatch hk)).complete
    · cases hd.symm.trans hexec
      exact h.raise _

/-! ### Host accesses and reset keep the machine legal -/

theorem State.Legal.storeByte {s : State} (h : s.Legal) (a : Nat) (b : Byte) : (s.storeByte a b).Legal := by
  rcases windowOf_cases a with ⟨-, -, hw⟩ | ⟨-, -, hw⟩ | ⟨-, -, hw⟩ | ⟨-, -, hw⟩ <;>
    simp only [State.storeByte, hw]
  · exact h.writeBytes .packBuf _ _ (fun hk => nomatch hk)
  · exact h.writeBytes .rleBuf _ _ (fun hk => nomatch hk)
  · exact h
  · exact h

theorem State.Legal.storeWindow {s : State} (h : s.Legal) (a : Nat) (n : AccessSize) (v : Word) :
    (s.storeWindow a n v).Legal :=
  List.foldlRecOn _ _ h fun _ ht _ _ => ht.storeByte _ _

theorem DataEffect.keeps_legal {p t : State} (heffect : DataEffect p t) (h : p.Legal) : t.Legal := by
  cases heffect with
  | ignored => exact h
  | read d => exact h.congr rfl rfl rfl rfl rfl rfl rfl
  | length l => exact h.setRleLen l
  | window a n v => exact h.storeWindow a n v

theorem issueCommand_keeps_legal (w : Word) {s t : State} (h : s.Legal) (hissue : issueCommand w s = .next t) :
    t.Legal := by
  cases hd : decode w with
  | ok i =>
    rw [issueCommand_of_ok hd] at hissue
    exact exec_keeps_legal i h hissue
  | error e =>
    rw [issueCommand_of_error hd] at hissue
    cases hissue
    exact h.raise .illegal

/-- The values of R231 are legal, whatever the number of the reset. -/
theorem State.afterReset_legal (n : Nat) : (State.afterReset n).Legal where
  canonical := ⟨State.reset_wf .canvas, State.reset_wf .packBuf, State.reset_wf .rleBuf⟩
  twoValued _ _ _ _ := .inr rfl
  registers :=
    (⟨by decide, by decide, by decide, by decide, by decide⟩ : State.reset.LegalRegisters).congr rfl rfl rfl rfl

theorem State.resetEvent_legal (s : State) (cut : Option Access) : (s.resetEvent cut).Legal :=
  have h : s.resetBlock.Legal := (State.afterReset_legal (s.resets + 1)).congr rfl rfl rfl rfl rfl rfl rfl
  h.congr (State.cutAccess_canvas _ cut) (State.cutAccess_packBuf _ cut) (State.cutAccess_rleBuf _ cut)
    (State.cutAccess_brushSize _ cut) (State.cutAccess_viewW _ cut) (State.cutAccess_viewH _ cut)
    (State.cutAccess_resultCode _ cut)

/-! ### Register reads -/

/-- The value of a word of two fields. -/
theorem append_toNat {m n : Nat} (x : BitVec m) (y : BitVec n) :
    (x ++ y).toNat = x.toNat * 2 ^ n + y.toNat := by
  rw [BitVec.toNat_append, ← Nat.shiftLeft_add_eq_or_of_lt y.isLt, Nat.shiftLeft_eq]

theorem BrushMode.bit_toNat (md : BrushMode) : md.bit.toNat = if md = .erase then 1 else 0 := by
  cases md <;> rfl

theorem State.brushWord_toNat (s : State) :
    s.brushWord.toNat = s.brushSize.toNat + 2 ^ 8 * (if s.brushMode = .erase then 1 else 0) := by
  simp only [State.brushWord, append_toNat, BrushMode.bit_toNat, BitVec.toNat_ofNat]
  omega

theorem State.strokeWord_toNat (s : State) :
    s.strokeWord.toNat =
      (if s.strokeActive then 1 else 0) + 2 ^ 8 * s.lastX.toNat + 2 ^ 16 * s.lastY.toNat := by
  have hactive : (BitVec.ofBool s.strokeActive).toNat = if s.strokeActive then 1 else 0 := by
    cases s.strokeActive <;> rfl
  simp only [State.strokeWord, append_toNat, hactive, BitVec.toNat_ofNat]
  omega

theorem State.viewWord_toNat (s : State) : s.viewWord.toNat = s.viewW.toNat + 2 ^ 16 * s.viewH.toNat := by
  simp only [State.viewWord, append_toNat, BitVec.toNat_ofNat]
  omega

/-- A register of one field at bit 0 reads as the field. -/
theorem zero_append_toNat (m : Nat) {n : Nat} (x : BitVec n) : (0#m ++ x).toNat = x.toNat := by
  rw [append_toNat, BitVec.toNat_zero, Nat.zero_mul, Nat.zero_add]

/-- A 32-bit read of a register address is the register word (20 R60). -/
theorem State.memRead_register (s : State) {a : Addr} (haligned : aligned a .four = true)
    (hreg : inRegisterSpace a = true) : s.memRead a .four = s.regWord a.toNat := by
  rw [State.memRead, if_pos haligned, if_pos hreg, if_pos rfl]

end Sys2Proof.Machine
end

section
/-! The statements on the state and its registers (spec 10). -/

namespace Sys2Proof.Proofs

open Sys2Proof Sys2Proof.Machine

/-- Settles O16: along the cases of `step_cases`, each of which keeps the machine legal. -/
theorem everyStepKeepsTheMachineLegal : Obligations.EveryStepKeepsTheMachineLegal := by
  intro s t h hstep
  rcases step_cases s with ⟨-, hidle⟩ | ⟨w, rest, -, hcmd⟩ | ⟨x, rest, t', -, hdata, heffect⟩ |
    ⟨cut, rest, -, hreset⟩
  · cases hidle.symm.trans hstep
    exact h
  · exact issueCommand_keeps_legal w (h.setPending rest) (hcmd.symm.trans hstep)
  · cases hdata.symm.trans hstep
    exact heffect.keeps_legal (h.setPending rest)
  · cases hreset.symm.trans hstep
    exact State.resetEvent_legal _ cut

/-- Settles O14: of the cases of `step_cases`, only a command and reset can change CANVAS, and the command's
effect then names one of the four. -/
theorem onlyFourCommandsWriteTheCanvas : Obligations.OnlyFourCommandsWriteTheCanvas := by
  intro s t hstep hne
  rcases step_cases s with ⟨-, hidle⟩ | ⟨w, rest, hp, hcmd⟩ | ⟨x, rest, t', -, hdata, heffect⟩ |
    ⟨cut, rest, hp, -⟩
  · cases hidle.symm.trans hstep
    exact absurd rfl hne
  · rw [hcmd] at hstep
    cases hd : decode w with
    | ok i =>
      rw [issueCommand_of_ok hd] at hstep
      exact .inl ⟨rest, w, i, hp, hd, (commandEffect_of_exec hstep).mnemonic_of_canvas_ne hne⟩
    | error e =>
      rw [issueCommand_of_error hd] at hstep
      cases hstep
      exact absurd rfl hne
  · cases hdata.symm.trans hstep
    exact absurd heffect.canvas_eq hne
  · exact .inr ⟨cut, rest, hp⟩

/-- Settles O15: read off the effect of each command (`CommandEffect`). -/
theorem commandsChangeOnlyTheirOwnState : Obligations.CommandsChangeOnlyTheirOwnState := by
  intro i s t h
  cases commandEffect_of_exec h <;> simp

/-- Settles O17: the reset state is the state after reset number 0. -/
theorem resetStateIsLegal : Obligations.ResetStateIsLegal := State.afterReset_legal 0

/-- Settles O46: each read is a register word, and each register word is a sum of its fields. -/
theorem registerReadsGiveTheirFields : Obligations.RegisterReadsGiveTheirFields := by
  intro s
  have read : ∀ a : Addr, aligned a .four = true → inRegisterSpace a = true →
      (s.memRead a .four).toNat = (s.regWord a.toNat).toNat :=
    fun a haligned hreg => congrArg BitVec.toNat (s.memRead_register haligned hreg)
  exact ⟨read 0x0000#16 rfl rfl,
    (read 0x0004#16 rfl rfl).trans (zero_append_toNat 28 _),
    (read 0x0008#16 rfl rfl).trans s.brushWord_toNat,
    (read 0x000C#16 rfl rfl).trans s.strokeWord_toNat,
    (read 0x0010#16 rfl rfl).trans s.viewWord_toNat,
    (read 0x0014#16 rfl rfl).trans (zero_append_toNat 20 _)⟩

end Sys2Proof.Proofs
end

section
/-! Facts about the host bus that the statements on spec 20 use: one equation per case of a read and of a write, the
bytes of a stored window, and the step that performs an access. -/

namespace Sys2Proof.Machine

/-! ### Alignment and the regions of the map -/

theorem aligned_iff (a : Addr) (n : AccessSize) : aligned a n = true ↔ a.toNat % n.bytes = 0 := beq_iff_eq

theorem inRegisterSpace_iff (a : Addr) : inRegisterSpace a = true ↔ a.toNat < 0x1000 := decide_eq_true_iff

@[simp] theorem aligned_one (a : Addr) : aligned a .one = true := (aligned_iff a .one).mpr (Nat.mod_one _)

/-- An aligned access stays inside one 4-byte word, and every region of R51 is made of such words. -/
theorem div_four_of_aligned {a : Addr} {n : AccessSize} (h : aligned a n = true) {k : Nat} (hk : k < n.bytes) :
    (a.toNat + k) / 4 = a.toNat / 4 := by
  rw [aligned_iff] at h
  cases n <;> simp only [AccessSize.bytes] at h hk <;> omega

theorem bufferAddress_congr {a b : Nat} (h : b / 4 = a / 4) : bufferAddress b ↔ bufferAddress a := by
  unfold bufferAddress
  omega

theorem reservedAddress_congr {a b : Nat} (h : b / 4 = a / 4) : reservedAddress b ↔ reservedAddress a := by
  unfold reservedAddress
  omega

theorem not_bufferAddress_of_canvasAddress {a : Nat} (h : canvasAddress a) : ¬ bufferAddress a := by
  unfold canvasAddress at h
  unfold bufferAddress
  omega

theorem not_bufferAddress_of_reservedAddress {a : Nat} (h : reservedAddress a) : ¬ bufferAddress a := by
  unfold reservedAddress at h
  unfold bufferAddress
  omega

theorem le_of_reservedAddress {a : Nat} (h : reservedAddress a) : 0x0018 ≤ a := by
  unfold reservedAddress at h
  omega

theorem le_of_bufferAddress {a : Nat} (h : bufferAddress a) : 0x1000 ≤ a := by
  unfold bufferAddress at h
  omega

/-! ### The byte at an address -/

theorem State.byteAt_of_windowOf {a : Nat} {k : Bank} {i : Nat} (h : windowOf a = some (k, i)) (s : State) :
    s.byteAt a = s.readByte k i := by
  rw [State.byteAt, h]

theorem windowOf_packBuf {i : Nat} (h : i < 1024) : windowOf (0x1000 + i) = some (.packBuf, i) := by
  rw [windowOf, if_pos (by omega), Nat.add_sub_cancel_left]

theorem windowOf_rleBuf {i : Nat} (h : i < 2048) : windowOf (0x2000 + i) = some (.rleBuf, i) := by
  rw [windowOf, if_neg (by omega), if_pos (by omega), Nat.add_sub_cancel_left]

theorem windowOf_canvas {i : Nat} (h : i < 8192) : windowOf (0x4000 + i) = some (.canvas, i) := by
  rw [windowOf, if_neg (by omega), if_neg (by omega), if_pos (by omega), Nat.add_sub_cancel_left]

theorem State.byteAt_reserved (s : State) {a : Nat} (h : reservedAddress a) : s.byteAt a = 0#8 := by
  unfold reservedAddress at h
  rcases windowOf_cases a with ⟨_, _, _⟩ | ⟨_, _, _⟩ | ⟨_, _, _⟩ | ⟨-, -, hw⟩
  · omega
  · omega
  · omega
  · rw [State.byteAt, hw]

/-! ### Reads, case by case (20 R60) -/

/-- No register stands at a reserved address (20 R51). -/
theorem State.regWord_reserved (s : State) {a : Nat} (h : reservedAddress a) : s.regWord a = 0#32 := by
  have hge := le_of_reservedAddress h
  rw [State.regWord, if_neg (by omega), if_neg (by omega), if_neg (by omega), if_neg (by omega), if_neg (by omega)]

theorem State.memRead_misaligned (s : State) {a : Addr} {n : AccessSize} (h : ¬ aligned a n = true) :
    s.memRead a n = 0#32 := if_neg h

/-- A read of 1 or 2 bytes of register space is 0 (20 R52). -/
theorem State.memRead_narrow (s : State) {a : Addr} {n : AccessSize} (hreg : a.toNat < 0x1000) (hn : n ≠ .four) :
    s.memRead a n = 0#32 := by
  rw [State.memRead, if_pos ((inRegisterSpace_iff a).mpr hreg), if_neg hn, ite_self]

theorem State.memRead_window (s : State) {a : Addr} {n : AccessSize} (h : aligned a n = true)
    (hwin : 0x1000 ≤ a.toNat) : s.memRead a n = s.windowWord a.toNat n := by
  rw [State.memRead, if_pos h, if_neg (by rw [inRegisterSpace_iff]; omega)]

/-- The value of a window read is the sum of its bytes, byte `k` weighted `2^(8k)` (20 R57). -/
theorem State.windowWord_toNat (s : State) (a : Nat) (n : AccessSize) :
    (s.windowWord a n).toNat = ∑ k ∈ Finset.range n.bytes, 2 ^ (8 * k) * (s.byteAt (a + k)).toNat := by
  have h0 : (s.byteAt a).toNat < 256 := (s.byteAt a).isLt
  have h1 : (s.byteAt (a + 1)).toNat < 256 := (s.byteAt (a + 1)).isLt
  cases n <;>
    simp only [State.windowWord, AccessSize.bytes, Finset.sum_range_succ, Finset.sum_range_zero, append_toNat,
      BitVec.toNat_setWidth, Nat.add_zero] <;>
    omega

/-- Every read of a reserved address is 0: it is no register, or all its bytes are reserved (20 R51, R56). -/
theorem State.memRead_reserved (s : State) {a : Addr} (hres : reservedAddress a.toNat) (n : AccessSize) :
    s.memRead a n = 0#32 := by
  by_cases h : aligned a n = true
  · by_cases hreg : a.toNat < 0x1000
    · by_cases hn : n = .four
      · subst hn
        rw [s.memRead_register h ((inRegisterSpace_iff a).mpr hreg), s.regWord_reserved hres]
      · exact s.memRead_narrow hreg hn
    · refine BitVec.eq_of_toNat_eq ?_
      rw [s.memRead_window h (by omega), s.windowWord_toNat, BitVec.toNat_zero]
      refine Finset.sum_eq_zero fun k hk => ?_
      have hbyte : reservedAddress (a.toNat + k) :=
        (reservedAddress_congr (div_four_of_aligned h (Finset.mem_range.mp hk))).mpr hres
      rw [s.byteAt_reserved hbyte, BitVec.toNat_zero, Nat.mul_zero]
  · exact s.memRead_misaligned h

/-! ### Writes, case by case (20 R61) -/

theorem memWrite_misaligned {a : Addr} {n : AccessSize} (h : ¬ aligned a n = true) (v : Word) (s : State) :
    memWrite a n v s = .next s := if_neg h

/-- A write of 1 or 2 bytes to register space is ignored (20 R52). -/
theorem memWrite_narrow {a : Addr} {n : AccessSize} (hreg : a.toNat < 0x1000) (hn : n ≠ .four) (v : Word)
    (s : State) : memWrite a n v s = .next s := by
  rw [memWrite, if_pos ((inRegisterSpace_iff a).mpr hreg), if_neg hn, ite_self]

theorem memWrite_command (v : Word) (s : State) : memWrite 0x0000#16 .four v s = issueCommand v s := rfl

theorem memWrite_rleLen (v : Word) (s : State) :
    memWrite 0x0014#16 .four v s = .next { s with rleLen := v.extractLsb' 0 12 } := rfl

/-- A register other than CMD and RLE_LEN ignores a word write (20 R52), as reserved register addresses do. -/
theorem memWrite_other_register {a : Addr} (hreg : a.toNat < 0x1000) (hcmd : a ≠ 0x0000#16) (hlen : a ≠ 0x0014#16)
    (v : Word) (s : State) : memWrite a .four v s = .next s := by
  have hlen' : a.toNat ≠ 0x0014 := fun h => hlen (BitVec.eq_of_toNat_eq h)
  rw [memWrite, if_pos ((inRegisterSpace_iff a).mpr hreg), if_pos rfl, if_neg hcmd, State.writeRegister,
    if_neg hlen', ite_self]

theorem memWrite_window {a : Addr} {n : AccessSize} (h : aligned a n = true) (hwin : 0x1000 ≤ a.toNat) (v : Word)
    (s : State) : memWrite a n v s = .next (s.storeWindow a.toNat n v) := by
  rw [memWrite, if_pos h, if_neg (by rw [inRegisterSpace_iff]; omega)]

/-! ### The bytes of a stored window -/

/-- Storing to addresses outside the two buffers changes nothing (20 R55, R56). -/
theorem State.storeWindow_ignored (s : State) {a : Nat} {n : AccessSize}
    (h : ∀ k < n.bytes, ¬ bufferAddress (a + k)) (v : Word) : s.storeWindow a n v = s := by
  have fold : ∀ m ≤ n.bytes,
      (List.range m).foldl (fun t k => t.storeByte (a + k) (v.extractLsb' (8 * k) 8)) s = s := by
    intro m
    induction m with
    | zero => exact fun _ => rfl
    | succ m ih =>
      intro hm
      rw [storeWindow_fold_succ, ih (by omega)]
      exact (s.storeByte_byteAt _ 0 _).2 (h m (by omega))
  exact fold n.bytes (Nat.le_refl _)

/-- Everything a window store to a buffer does to the bytes of the bus (20 R53, R54, R57). -/
theorem State.storeWindow_byteAt (s : State) {a : Nat} {n : AccessSize} (h : ∀ k < n.bytes, bufferAddress (a + k))
    (v : Word) (c : Nat) :
    (s.storeWindow a n v).byteAt c =
      if a ≤ c ∧ c < a + n.bytes then v.extractLsb' (8 * (c - a)) 8 else s.byteAt c := by
  have fold : ∀ m ≤ n.bytes,
      ((List.range m).foldl (fun t k => t.storeByte (a + k) (v.extractLsb' (8 * k) 8)) s).byteAt c =
        if a ≤ c ∧ c < a + m then v.extractLsb' (8 * (c - a)) 8 else s.byteAt c := by
    intro m
    induction m with
    | zero => exact fun _ => (if_neg (by omega)).symm
    | succ m ih =>
      intro hm
      rw [storeWindow_fold_succ, (State.storeByte_byteAt _ _ c _).1 (h m (by omega)), ih (by omega)]
      by_cases hc : c = a + m
      · rw [if_pos hc, if_pos (by omega), hc, Nat.add_sub_cancel_left]
      · rw [if_neg hc]
        exact if_congr (by omega) rfl rfl
  exact fold n.bytes (Nat.le_refl _)

/-- An aligned write of a buffer window: what it answers, and every byte of the bus after it. -/
theorem memWrite_buffer {a : Addr} {n : AccessSize} (hbuf : bufferAddress a.toNat) (h : aligned a n = true)
    (v : Word) (s : State) :
    memWrite a n v s = .next (s.storeWindow a.toNat n v) ∧
      ∀ c, (s.storeWindow a.toNat n v).byteAt c =
        if a.toNat ≤ c ∧ c < a.toNat + n.bytes then v.extractLsb' (8 * (c - a.toNat)) 8 else s.byteAt c :=
  ⟨memWrite_window h (le_of_bufferAddress hbuf) v s,
    s.storeWindow_byteAt (fun _ hk => (bufferAddress_congr (div_four_of_aligned h hk)).mpr hbuf) v⟩

/-- A write at an address above register space whose word lies outside the buffers is ignored, at every size. -/
theorem memWrite_outside_buffers {a : Addr} (hwin : 0x1000 ≤ a.toNat) (hbuf : ¬ bufferAddress a.toNat)
    (n : AccessSize) (v : Word) (s : State) : memWrite a n v s = .next s := by
  by_cases h : aligned a n = true
  · rw [memWrite_window h hwin, s.storeWindow_ignored fun k hk hb =>
      hbuf ((bufferAddress_congr (div_four_of_aligned h hk)).mp hb)]
  · exact memWrite_misaligned h v s

/-- A write to a reserved address is ignored, at every size (20 R51, R56). -/
theorem memWrite_reserved {a : Addr} (hres : reservedAddress a.toNat) (n : AccessSize) (v : Word) (s : State) :
    memWrite a n v s = .next s := by
  by_cases hreg : a.toNat < 0x1000
  · by_cases hn : n = .four
    · subst hn
      have hge := le_of_reservedAddress hres
      refine memWrite_other_register hreg ?_ ?_ v s
      · rintro rfl
        exact absurd hge (by decide)
      · rintro rfl
        exact absurd hge (by decide)
    · exact memWrite_narrow hreg hn v s
  · exact memWrite_outside_buffers (by omega) (not_bufferAddress_of_reservedAddress hres) n v s

/-- The bytes of a value, weighted, sum to its low bits. -/
theorem sum_extractLsb'_toNat (v : Word) (m : Nat) :
    ∑ k ∈ Finset.range m, 2 ^ (8 * k) * (v.extractLsb' (8 * k) 8).toNat = v.toNat % 2 ^ (8 * m) := by
  induction m with
  | zero => simp [Nat.mod_one]
  | succ m ih =>
    rw [Finset.sum_range_succ, ih, BitVec.extractLsb'_toNat, Nat.shiftRight_eq_div_pow, Nat.mul_succ, Nat.pow_add,
      Nat.mod_mul]

/-! ### Steps that perform an access -/

theorem step_of_access {s : State} {x : Access} {rest : List HostEvent} (h : s.pending = .access x :: rest) :
    step s = performAccess x { s with pending := rest } := by
  rw [step, serveNext, h]
  rfl

theorem step_of_command {s : State} {w : Word} {i : Instr} {rest : List HostEvent}
    (h : s.pending = .access (.write32 0x0000#16 w) :: rest) (hd : decode w = .ok i) :
    step s = exec i { s with pending := rest } := by
  rw [step_of_access h, performAccess, memWrite_command, issueCommand_of_ok hd]

/-- A 1-byte write of a buffer window, performed as one step. -/
theorem step_of_write8_buffer {s : State} {a : Addr} {v : Byte} {rest : List HostEvent}
    (h : s.pending = .access (.write8 a v) :: rest) (hbuf : bufferAddress a.toNat) :
    ∃ t, step s = .next t ∧ (∀ c, t.byteAt c = if c = a.toNat then v else s.byteAt c) ∧
      t = { s with packBuf := t.packBuf, rleBuf := t.rleBuf, pending := rest } := by
  refine ⟨({ s with pending := rest } : State).storeByte a.toNat v, ?_, fun c => ?_, ?_⟩
  · have hv : (v.setWidth 32).extractLsb' 0 8 = v := by
      rw [BitVec.extractLsb'_setWidth_of_le (by decide), BitVec.extractLsb'_eq_self]
    rw [step_of_access h, performAccess, memWrite_window (aligned_one a) (le_of_bufferAddress hbuf)]
    show Host.Outcome.next (State.storeByte _ a.toNat ((v.setWidth 32).extractLsb' 0 8)) = _
    rw [hv]
  · exact (State.storeByte_byteAt _ _ c v).1 hbuf
  · exact State.storeByte_frame _ _ _

/-- A run goes on from the state its first step answers. -/
theorem core_run_succ {M : Host.Core} {s t : M.State} (h : M.step s = .next t) (k : Nat) :
    M.run (k + 1) s = M.run k t := by
  rw [Host.Core.run, h]

/-- Running the writes of WRBYTES, one step each: every byte of the bus afterwards, and the frame (30 R92). -/
theorem run_wrBytes {rest : List HostEvent} (bs : List Byte) {s : State} {a : Addr}
    (hp : s.pending = (Access.wrBytes a bs).map HostEvent.access ++ rest)
    (hbuf : ∀ j < bs.length, bufferAddress (a.toNat + j)) :
    ∃ t, Sys2Proof.core.run bs.length s = .next t ∧
      (∀ c, t.byteAt c =
        if a.toNat ≤ c ∧ c < a.toNat + bs.length then bs.getD (c - a.toNat) 0#8 else s.byteAt c) ∧
      t = { s with packBuf := t.packBuf, rleBuf := t.rleBuf, pending := rest } := by
  induction bs generalizing s a with
  | nil =>
    have hrest : s.pending = rest := hp
    refine ⟨s, rfl, fun c => (if_neg ?_).symm, hrest ▸ rfl⟩
    rw [List.length_nil]
    omega
  | cons b bs ih =>
    have ha : bufferAddress a.toNat := hbuf 0 (by simp)
    obtain ⟨u, hstep, hbyte, hframe⟩ := step_of_write8_buffer hp ha
    have hnext : (a + 1#16).toNat = a.toNat + 1 := by
      unfold bufferAddress at ha
      rw [BitVec.toNat_add, BitVec.toNat_ofNat]
      omega
    have hbuf' : ∀ j < bs.length, bufferAddress ((a + 1#16).toNat + j) := by
      intro j hj
      rw [hnext, Nat.add_assoc, Nat.add_comm 1]
      exact hbuf (j + 1) (by simpa using hj)
    obtain ⟨t, hrun, hbytes, htframe⟩ := ih (show u.pending = _ by rw [hframe]; rfl) hbuf'
    refine ⟨t, (core_run_succ (M := Sys2Proof.core) hstep _).trans hrun, fun c => ?_, by rw [htframe, hframe]⟩
    rw [hbytes, hbyte, hnext, List.length_cons]
    by_cases hc : c = a.toNat
    · rw [if_neg (by omega), if_pos hc, if_pos (by omega), hc, Nat.sub_self]
      rfl
    · by_cases hin : a.toNat + 1 ≤ c ∧ c < a.toNat + 1 + bs.length
      · rw [if_pos hin, if_pos (by omega), show c - a.toNat = c - (a.toNat + 1) + 1 by omega]
        rfl
      · rw [if_neg hin, if_neg hc, if_neg (by omega)]

end Sys2Proof.Machine
end

section
/-! The statements on memory and the host bus (spec 20), and on the step that performs an access. -/

namespace Sys2Proof.Proofs

open Sys2Proof Sys2Proof.Machine

/-- Settles O50: a reserved address is no register, and every byte of the word it lies in is outside the windows. -/
theorem reservedAddressesReadZeroAndIgnoreWrites : Obligations.ReservedAddressesReadZeroAndIgnoreWrites :=
  fun s _ n v hres => ⟨s.memRead_reserved hres n, memWrite_reserved hres n v s⟩

/-- Settles O51: the windows by the address map, the write by the bytes of a stored window. -/
theorem bufferWriteStoresItsBytesAndNothingElse : Obligations.BufferWriteStoresItsBytesAndNothingElse := by
  refine ⟨fun s i hi => s.byteAt_of_windowOf (windowOf_packBuf hi),
    fun s i hi => s.byteAt_of_windowOf (windowOf_rleBuf hi), fun s a n v hbuf h => ?_⟩
  obtain ⟨hwrite, hbyte⟩ := memWrite_buffer hbuf h v s
  refine ⟨_, hwrite, fun k hk => ?_, fun b hb => ?_, s.storeWindow_frame _ _ _⟩
  · rw [hbyte, if_pos (by omega), Nat.add_sub_cancel_left]
  · rw [hbyte, if_neg (by omega)]

/-- Settles O52: the read sums the bytes the write stored, and the second write stores the same bytes again. -/
theorem bufferReadReturnsTheValueWritten : Obligations.BufferReadReturnsTheValueWritten := by
  intro s a n v hbuf h
  obtain ⟨hwrite, hbyte⟩ := memWrite_buffer hbuf h v s
  obtain ⟨hagain, hbyte'⟩ := memWrite_buffer hbuf h v (s.storeWindow a.toNat n v)
  refine ⟨_, _, hwrite, hagain, ?_, fun b => ?_⟩
  · rw [State.memRead_window _ h (le_of_bufferAddress hbuf), State.windowWord_toNat, ← sum_extractLsb'_toNat]
    refine Finset.sum_congr rfl fun k hk => ?_
    have hk := Finset.mem_range.mp hk
    rw [hbyte, if_pos (by omega), Nat.add_sub_cancel_left]
  · rw [hbyte', hbyte]
    split <;> rfl

/-- Settles O53: by induction on the bytes (`run_wrBytes`), all of whose addresses lie in the window. -/
theorem wrBytesStoresTheSequence : Obligations.WrBytesStoresTheSequence := by
  intro s rest a bs hp hwin
  have hbuf : ∀ j < bs.length, bufferAddress (a.toNat + j) := by
    intro j hj
    unfold bufferAddress
    omega
  obtain ⟨t, hrun, hbyte, hframe⟩ := run_wrBytes bs hp hbuf
  refine ⟨t, hrun, fun j hj => ?_, fun b hb => ?_, hframe⟩
  · rw [hbyte, if_pos (by omega), Nat.add_sub_cancel_left]
  · rw [hbyte, if_neg (by omega)]

/-- Settles O6: a command at the head of the queue is what the step runs, and `withFetchWord` puts one there. -/
theorem stepRunsTheDecodedCommand : Obligations.StepRunsTheDecodedCommand := by
  refine ⟨fun s rest w i hp hd => step_of_command hp hd, fun s w i hd => ?_⟩
  have hword : BitVec.ofNat 32 (w.toNat % 2 ^ 32) = w := by
    rw [Nat.mod_eq_of_lt w.isLt, BitVec.ofNat_toNat, BitVec.setWidth_eq]
  rw [State.withFetchWord, hword]
  exact step_of_command (rest := s.pending) rfl hd

/-- Settles O45: the weighted sum of the bytes, written out at each size. -/
theorem windowReadsAreLittleEndian : Obligations.WindowReadsAreLittleEndian := by
  intro s a hwin
  have read : ∀ n : AccessSize, a.toNat % n.bytes = 0 →
      (s.memRead a n).toNat = ∑ k ∈ Finset.range n.bytes, 2 ^ (8 * k) * (s.byteAt (a.toNat + k)).toNat := by
    intro n h
    rw [s.memRead_window ((aligned_iff a n).mpr h) hwin, s.windowWord_toNat]
  refine ⟨?_, fun h => ?_, fun h => ?_⟩
  · simp [read .one (Nat.mod_one _), AccessSize.bytes]
  · simp [read .two h, AccessSize.bytes, Finset.sum_range_succ]
  · simp [read .four h, AccessSize.bytes, Finset.sum_range_succ]

/-- Settles O47: alignment is the first test of a read and of a write, before the region. -/
theorem misalignedAccessReadsZeroAndWritesNothing : Obligations.MisalignedAccessReadsZeroAndWritesNothing := by
  intro s a v
  have both : ∀ n : AccessSize, a.toNat % n.bytes ≠ 0 → s.memRead a n = 0#32 ∧ memWrite a n v s = .next s := by
    intro n h
    have hmis : ¬ aligned a n = true := mt (aligned_iff a n).mp h
    exact ⟨s.memRead_misaligned hmis, memWrite_misaligned hmis v s⟩
  exact ⟨both .two, both .four⟩

/-- Settles O48: narrow accesses by size, word writes by the register they name. -/
theorem registerSpaceTakesOnlyWordAccesses : Obligations.RegisterSpaceTakesOnlyWordAccesses := by
  intro s a v hreg
  refine ⟨s.memRead_narrow hreg (by decide), s.memRead_narrow hreg (by decide),
    memWrite_narrow hreg (by decide) v s, memWrite_narrow hreg (by decide) v s, ?_,
    fun hcmd hlen => memWrite_other_register hreg hcmd hlen v s, ?_⟩
  · rintro rfl
    exact memWrite_rleLen v s
  · rintro rfl
    exact memWrite_command v s

/-- Settles O49: the window is element `y*W + x` of CANVAS, and no address of it is a buffer address. -/
theorem canvasWindowIsReadOnly : Obligations.CanvasWindowIsReadOnly := by
  refine ⟨fun s x y hx hy => ?_, fun s a n v hcanvas => ?_⟩
  · have ha : (BitVec.ofNat 16 (0x4000 + y * 128 + x)).toNat = 0x4000 + (y * 128 + x) := by
      rw [BitVec.toNat_ofNat]
      omega
    rw [s.memRead_window (aligned_one _) (by omega), ha, State.windowWord,
      s.byteAt_of_windowOf (windowOf_canvas (by omega))]
    rfl
  · refine memWrite_outside_buffers ?_ (not_bufferAddress_of_canvasAddress hcanvas) n v s
    unfold canvasAddress at hcanvas
    omega

/-- Settles O54: the step performs the read, whose value depends on no part of the queue. -/
theorem hostReadChangesNothing : Obligations.HostReadChangesNothing :=
  fun _ _ _ _ hp => step_of_access hp

/-- Settles O57: each write event is performed as the `MemWrite` of its size, its value zero-extended. -/
theorem hostWriteIsOneMemWriteOfItsSize : Obligations.HostWriteIsOneMemWriteOfItsSize := by
  refine ⟨fun s rest a v hp => ?_, fun s rest a v hp => ?_, fun s rest a v hp => step_of_access hp⟩
  · rw [step_of_access hp, performAccess, BitVec.ofNat_toNat]
  · rw [step_of_access hp, performAccess, BitVec.ofNat_toNat]

end Sys2Proof.Proofs
end

section
/-! Facts about the encoding (spec 30): the fields of a word and of an encoded command, decoding by opcode, what R89
reserves in each format, what decoding a word can do, and the rows of the opcode map. -/

namespace Sys2Proof

open Sys2Proof.Machine

/-! ### The fields of a word (30 R81 to R86) -/

/-- A field of a word, as the quotient and remainder that `reservedWord` speaks of. -/
theorem field_toNat (w : Word) (start len : Nat) :
    (w.extractLsb' start len).toNat = w.toNat / 2 ^ start % 2 ^ len := by
  rw [BitVec.extractLsb'_toNat, Nat.shiftRight_eq_div_pow]

theorem opcodeOf_toNat (w : Word) : (opcodeOf w).toNat = w.toNat / 2 ^ 28 := by
  rw [opcodeOf, field_toNat]
  omega

theorem field_eq_zero_iff (w : Word) (start len : Nat) :
    w.extractLsb' start len = 0#len ↔ w.toNat / 2 ^ start % 2 ^ len = 0 := by
  rw [← field_toNat, ← BitVec.toNat_inj, BitVec.toNat_zero]

theorem opcode_append_payload (w : Word) : opcodeOf w ++ payloadOf w = w :=
  (BitVec.extractLsb'_append_extractLsb'_eq_extractLsb' (start₁ := 0) (len₁ := 28) rfl).trans
    BitVec.extractLsb'_eq_self

/-- The payload cut at bit `n`: a word is its opcode, the field above the cut and the field below it. -/
theorem opcode_append_fields (w : Word) {n m : Nat} (h : 28 = n + m) :
    (opcodeOf w ++ w.extractLsb' n m ++ w.extractLsb' 0 n).toNat = w.toNat := by
  have hhigh : opcodeOf w ++ w.extractLsb' n m = w.extractLsb' n (4 + m) :=
    BitVec.extractLsb'_append_extractLsb'_eq_extractLsb' h
  rw [hhigh, BitVec.extractLsb'_append_extractLsb'_eq_extractLsb' (Nat.zero_add n).symm, field_toNat, Nat.pow_zero,
    Nat.div_one, Nat.mod_eq_of_lt]
  exact w.isLt.trans_le (Nat.pow_le_pow_right (by decide) (by omega))

/-- The mode a word holds in MD has that very bit (R85). -/
theorem bit_modeField (w : Word) : (modeField w).bit = w.extractLsb' 0 1 := by
  obtain h | h := BitVec.eq_zero_or_eq_one (w.extractLsb' 0 1)
  · rw [modeField, if_pos h, h, BrushMode.bit]
  · rw [modeField, if_neg (h ▸ by decide), h, BrushMode.bit]

/-! ### The operands a field holds (30 R87) -/

theorem sext14_ofInt {p : Int} (h : fitsCoord p = true) : sext14 (BitVec.ofInt 14 p) = p := by
  simp only [fitsCoord, Bool.and_eq_true, decide_eq_true_eq] at h
  exact BitVec.toInt_ofInt_eq_self (by decide) h.1 (by omega)

theorem zext14_ofNat {v : Nat} (h : fitsView v = true) : zext14 (BitVec.ofNat 14 v) = v :=
  Nat.mod_eq_of_lt (Nat.lt_succ_of_le (of_decide_eq_true h))

theorem toNat_ofNat_of_fitsSize {sz : Nat} (h : fitsSize sz = true) : (BitVec.ofNat 8 sz).toNat = sz :=
  Nat.mod_eq_of_lt (Nat.lt_succ_of_le (of_decide_eq_true h))

theorem fitsCoord_sext14 (f : BitVec 14) : fitsCoord (sext14 f) = true := by
  have hlo : -8192 ≤ f.toInt := f.le_toInt
  have hhi : f.toInt ≤ 8191 := f.toInt_le
  simp [fitsCoord, sext14, hlo, hhi]

theorem fitsView_zext14 (f : BitVec 14) : fitsView (zext14 f) = true := decide_eq_true (Nat.le_of_lt_succ f.isLt)

theorem fitsSize_sizeField (w : Word) : fitsSize (sizeField w) = true :=
  decide_eq_true (Nat.le_of_lt_succ (w.extractLsb' 0 8).isLt)

/-! ### The fields of an encoded command (30 R82 to R86) -/

/-- The opcode above a payload cut into two fields. -/
theorem opcodeOf_fields (op : BitVec 4) {n m : Nat} (x : BitVec m) (y : BitVec n) (h : 28 = n + m) :
    (op ++ x ++ y).extractLsb' 28 4 = op := by
  rw [BitVec.extractLsb'_append_eq_of_le (by omega), BitVec.extractLsb'_append_eq_of_le (by omega),
    show 28 - n - m = 0 by omega, BitVec.extractLsb'_eq_self]

/-- The upper of the two fields of a payload. -/
theorem upperField_fields (op : BitVec 4) {n m : Nat} (x : BitVec m) (y : BitVec n) :
    (op ++ x ++ y).extractLsb' n m = x := by
  rw [BitVec.extractLsb'_append_eq_of_le le_rfl, Nat.sub_self, BitVec.extractLsb'_append_eq_right]

theorem opcodeOf_encodeN (op : BitVec 4) : opcodeOf (encodeN op) = op := BitVec.extractLsb'_append_eq_left

theorem opcodeOf_encodeP (op : BitVec 4) (px py : Int) : opcodeOf (encodeP op px py) = op := opcodeOf_fields op _ _ rfl

theorem opcodeOf_encodeS (op : BitVec 4) (sz : Nat) : opcodeOf (encodeS op sz) = op := opcodeOf_fields op _ _ rfl

theorem opcodeOf_encodeM (op : BitVec 4) (md : BrushMode) : opcodeOf (encodeM op md) = op := opcodeOf_fields op _ _ rfl

theorem opcodeOf_encodeV (op : BitVec 4) (vw vh : Nat) : opcodeOf (encodeV op vw vh) = op := opcodeOf_fields op _ _ rfl

theorem lowField_encodeP (op : BitVec 4) (px py : Int) : lowField (encodeP op px py) = BitVec.ofInt 14 px :=
  BitVec.extractLsb'_append_eq_right

theorem highField_encodeP (op : BitVec 4) (px py : Int) : highField (encodeP op px py) = BitVec.ofInt 14 py :=
  upperField_fields op _ _

theorem lowField_encodeV (op : BitVec 4) (vw vh : Nat) : lowField (encodeV op vw vh) = BitVec.ofNat 14 vw :=
  BitVec.extractLsb'_append_eq_right

theorem highField_encodeV (op : BitVec 4) (vw vh : Nat) : highField (encodeV op vw vh) = BitVec.ofNat 14 vh :=
  upperField_fields op _ _

theorem sizeField_encodeS (op : BitVec 4) {sz : Nat} (h : fitsSize sz = true) : sizeField (encodeS op sz) = sz :=
  (congrArg BitVec.toNat BitVec.extractLsb'_append_eq_right).trans (toNat_ofNat_of_fitsSize h)

theorem modeField_encodeM (op : BitVec 4) (md : BrushMode) : modeField (encodeM op md) = md := by
  have hbit : (encodeM op md).extractLsb' 0 1 = md.bit := BitVec.extractLsb'_append_eq_right
  rw [modeField, hbit]
  cases md <;> rfl

/-! ### A word from its fields (30 R80, R81) -/

section
variable {w : Word} {op : BitVec 4}

theorem encodeN_of_fields (hop : opcodeOf w = op) (h : payloadOf w = 0#28) : encodeN op = w := by
  rw [encodeN, ← h, ← hop, opcode_append_payload]

theorem encodeP_of_fields (hop : opcodeOf w = op) : encodeP op (sext14 (lowField w)) (sext14 (highField w)) = w := by
  rw [encodeP, ← hop, sext14, sext14, BitVec.ofInt_toInt, BitVec.ofInt_toInt]
  exact BitVec.eq_of_toNat_eq (opcode_append_fields w (n := 14) rfl)

theorem encodeS_of_fields (hop : opcodeOf w = op) (h : w.extractLsb' 8 20 = 0#20) : encodeS op (sizeField w) = w := by
  rw [encodeS, ← h, ← hop, sizeField, BitVec.ofNat_toNat, BitVec.setWidth_eq]
  exact BitVec.eq_of_toNat_eq (opcode_append_fields w (n := 8) rfl)

theorem encodeM_of_fields (hop : opcodeOf w = op) (h : w.extractLsb' 1 27 = 0#27) : encodeM op (modeField w) = w := by
  rw [encodeM, ← h, ← hop, bit_modeField]
  exact BitVec.eq_of_toNat_eq (opcode_append_fields w (n := 1) rfl)

theorem encodeV_of_fields (hop : opcodeOf w = op) : encodeV op (zext14 (lowField w)) (zext14 (highField w)) = w := by
  rw [encodeV, ← hop, zext14, zext14, BitVec.ofNat_toNat, BitVec.ofNat_toNat, BitVec.setWidth_eq, BitVec.setWidth_eq]
  exact BitVec.eq_of_toNat_eq (opcode_append_fields w (n := 14) rfl)

end

/-! ### Decoding by opcode (30 R81, R88) -/

section
variable {w : Word}

theorem decode_nop (h : opcodeOf w = 0x0#4) : decode w = decodeN w .nop := by rw [decode, h]; rfl

theorem decode_beginStroke (h : opcodeOf w = 0x1#4) :
    decode w = .ok (.beginStroke (sext14 (lowField w)) (sext14 (highField w))) := by rw [decode, h]; rfl

theorem decode_extendStroke (h : opcodeOf w = 0x2#4) :
    decode w = .ok (.extendStroke (sext14 (lowField w)) (sext14 (highField w))) := by rw [decode, h]; rfl

theorem decode_endStroke (h : opcodeOf w = 0x3#4) : decode w = decodeN w .endStroke := by rw [decode, h]; rfl

theorem decode_clear (h : opcodeOf w = 0x4#4) : decode w = decodeN w .clear := by rw [decode, h]; rfl

theorem decode_setSize (h : opcodeOf w = 0x5#4) : decode w = decodeS w := by rw [decode, h]; rfl

theorem decode_setMode (h : opcodeOf w = 0x6#4) : decode w = decodeM w := by rw [decode, h]; rfl

theorem decode_setView (h : opcodeOf w = 0x7#4) :
    decode w = .ok (.setView (zext14 (lowField w)) (zext14 (highField w))) := by rw [decode, h]; rfl

theorem decode_pack (h : opcodeOf w = 0x8#4) : decode w = decodeN w .pack := by rw [decode, h]; rfl

theorem decode_unpack (h : opcodeOf w = 0x9#4) : decode w = decodeN w .unpack := by rw [decode, h]; rfl

theorem decode_encodeRle (h : opcodeOf w = 0xA#4) : decode w = decodeN w .encodeRle := by rw [decode, h]; rfl

theorem decode_decodeRle (h : opcodeOf w = 0xB#4) : decode w = decodeN w .decodeRle := by rw [decode, h]; rfl

theorem decode_reservedOpcode (h : 0xC ≤ (opcodeOf w).toNat) : decode w = .error .reservedOpcode := by
  obtain ⟨k, hk⟩ := Nat.exists_eq_add_of_le' h
  rw [decode, hk]
  rfl

end

theorem decodeN_encodeN (op : BitVec 4) (i : Instr) : decodeN (encodeN op) i = .ok i :=
  if_pos BitVec.extractLsb'_append_eq_right

theorem decodeS_encodeS (op : BitVec 4) {sz : Nat} (h : fitsSize sz = true) :
    decodeS (encodeS op sz) = .ok (.setSize sz) := by
  have hreserved : (encodeS op sz).extractLsb' 8 20 = 0#20 := upperField_fields op _ _
  rw [decodeS, if_pos hreserved, sizeField_encodeS op h]

theorem decodeM_encodeM (op : BitVec 4) (md : BrushMode) : decodeM (encodeM op md) = .ok (.setMode md) := by
  have hreserved : (encodeM op md).extractLsb' 1 27 = 0#27 := upperField_fields op _ _
  rw [decodeM, if_pos hreserved, modeField_encodeM]

/-- The word of a well-formed command decodes to it: its opcode leads to its format, whose fields hold the operands. -/
theorem decode_encode {i : Instr} (h : i.wellFormed = true) : decode (encode i) = .ok i := by
  cases i with
  | nop => exact (decode_nop (opcodeOf_encodeN _)).trans (decodeN_encodeN _ _)
  | beginStroke px py =>
    obtain ⟨hx, hy⟩ := Bool.and_eq_true_iff.mp h
    rw [encode, decode_beginStroke (opcodeOf_encodeP _ _ _), lowField_encodeP, highField_encodeP, sext14_ofInt hx,
      sext14_ofInt hy]
  | extendStroke px py =>
    obtain ⟨hx, hy⟩ := Bool.and_eq_true_iff.mp h
    rw [encode, decode_extendStroke (opcodeOf_encodeP _ _ _), lowField_encodeP, highField_encodeP, sext14_ofInt hx,
      sext14_ofInt hy]
  | endStroke => exact (decode_endStroke (opcodeOf_encodeN _)).trans (decodeN_encodeN _ _)
  | clear => exact (decode_clear (opcodeOf_encodeN _)).trans (decodeN_encodeN _ _)
  | setSize sz => exact (decode_setSize (opcodeOf_encodeS _ _)).trans (decodeS_encodeS _ h)
  | setMode md => exact (decode_setMode (opcodeOf_encodeM _ _)).trans (decodeM_encodeM _ _)
  | setView vw vh =>
    obtain ⟨hw, hh⟩ := Bool.and_eq_true_iff.mp h
    rw [encode, decode_setView (opcodeOf_encodeV _ _ _), lowField_encodeV, highField_encodeV, zext14_ofNat hw,
      zext14_ofNat hh]
  | pack => exact (decode_pack (opcodeOf_encodeN _)).trans (decodeN_encodeN _ _)
  | unpack => exact (decode_unpack (opcodeOf_encodeN _)).trans (decodeN_encodeN _ _)
  | encodeRle => exact (decode_encodeRle (opcodeOf_encodeN _)).trans (decodeN_encodeN _ _)
  | decodeRle => exact (decode_decodeRle (opcodeOf_encodeN _)).trans (decodeN_encodeN _ _)

/-! ### What R89 reserves, by format -/

/-- The opcodes of a format (30 R82 to R86). -/
def Format.opcodes : Format → List Nat
  | .N => [0x0, 0x3, 0x4, 0x8, 0x9, 0xA, 0xB]
  | .P => [0x1, 0x2]
  | .S => [0x5]
  | .M => [0x6]
  | .V => [0x7]

/-- How many low bits of a word hold operands; the payload's bits above them are reserved (30 R82 to R86). -/
def Format.operandBits : Format → Nat
  | .N => 0
  | .P => 28
  | .S => 8
  | .M => 1
  | .V => 28

/-- A word of a format's opcode is reserved iff its payload has a bit set above the operands. -/
theorem reservedWord_iff_of_format {w : Word} {f : Format} (h : w.toNat / 2 ^ 28 ∈ f.opcodes) :
    reservedWord w ↔ w.toNat / 2 ^ f.operandBits % 2 ^ (28 - f.operandBits) ≠ 0 := by
  cases f <;>
    simp only [reservedWord, Format.opcodes, Format.operandBits, List.mem_cons, List.not_mem_nil, or_false] at h ⊢ <;>
    omega

/-- A word of format P or V is never reserved: its payload is all operands. -/
theorem not_reservedWord_of_twoFields {w : Word} (h : w.toNat / 2 ^ 28 ∈ [0x1, 0x2, 0x7]) : ¬ reservedWord w := by
  simp only [reservedWord, List.mem_cons, List.not_mem_nil, or_false] at h ⊢
  omega

theorem reservedWord_of_opcode {w : Word} (h : 0xC ≤ (opcodeOf w).toNat) : reservedWord w :=
  .inl (opcodeOf_toNat w ▸ h)

/-- `reservedWord` in terms of the field the decoder tests. -/
theorem reservedWord_iff_field {w : Word} {f : Format} (h : (opcodeOf w).toNat ∈ f.opcodes) :
    reservedWord w ↔ w.extractLsb' f.operandBits (28 - f.operandBits) ≠ 0#_ := by
  rw [ne_eq, field_eq_zero_iff, reservedWord_iff_of_format (opcodeOf_toNat w ▸ h)]

/-- R89 and the pseudocode of R100 call the same words illegal. -/
theorem illegalWord_iff_reservedWord (w : Word) : illegalWord w = true ↔ reservedWord w := by
  simp only [illegalWord, reservedWord, payloadOf, Bool.or_eq_true, Bool.and_eq_true, bne_iff_ne, beq_iff_eq, ne_eq,
    field_eq_zero_iff, opcodeOf_toNat, List.contains_iff_mem, List.mem_cons, List.not_mem_nil, or_false,
    Nat.pow_zero, Nat.div_one]
  omega

/-! ### What decoding a word can do (30 R88, R89) -/

/-- The two results of decoding a word: the well-formed command whose word it is, or an error on a reserved word. -/
inductive DecodeResult (w : Word) : Except DecodeError Instr → Prop where
  | legal {i : Instr} (hlegal : ¬ reservedWord w) (hwf : i.wellFormed = true) (henc : encode i = w) :
      DecodeResult w (.ok i)
  | illegal (e : DecodeError) (h : reservedWord w) : DecodeResult w (.error e)

section
variable {w : Word}

theorem decodeN_result {op : BitVec 4} {i : Instr} (hop : opcodeOf w = op) (hN : op.toNat ∈ Format.N.opcodes)
    (hwf : i.wellFormed = true) (henc : encode i = encodeN op) : DecodeResult w (decodeN w i) := by
  have hres : reservedWord w ↔ payloadOf w ≠ 0#28 := reservedWord_iff_field (hop ▸ hN)
  unfold decodeN
  split
  next h => exact .legal (hres.not_left.mpr h) hwf (henc.trans (encodeN_of_fields hop h))
  next h => exact .illegal _ (hres.mpr h)

theorem decodeS_result (hop : opcodeOf w = 0x5#4) : DecodeResult w (decodeS w) := by
  have hres : reservedWord w ↔ w.extractLsb' 8 20 ≠ 0#20 := reservedWord_iff_field (f := .S) (by rw [hop]; decide)
  unfold decodeS
  split
  next h => exact .legal (hres.not_left.mpr h) (fitsSize_sizeField w) (encodeS_of_fields hop h)
  next h => exact .illegal _ (hres.mpr h)

theorem decodeM_result (hop : opcodeOf w = 0x6#4) : DecodeResult w (decodeM w) := by
  have hres : reservedWord w ↔ w.extractLsb' 1 27 ≠ 0#27 := reservedWord_iff_field (f := .M) (by rw [hop]; decide)
  unfold decodeM
  split
  next h => exact .legal (hres.not_left.mpr h) rfl (encodeM_of_fields hop h)
  next h => exact .illegal _ (hres.mpr h)

end

/-- Decoding a word, opcode by opcode: the format of each says which payloads are reserved. -/
theorem decode_result (w : Word) : DecodeResult w (decode w) := by
  have hcoord (f g : BitVec 14) : (fitsCoord (sext14 f) && fitsCoord (sext14 g)) = true :=
    Bool.and_eq_true_iff.mpr ⟨fitsCoord_sext14 f, fitsCoord_sext14 g⟩
  have hview (f g : BitVec 14) : (fitsView (zext14 f) && fitsView (zext14 g)) = true :=
    Bool.and_eq_true_iff.mpr ⟨fitsView_zext14 f, fitsView_zext14 g⟩
  have hop (op : BitVec 4) (h : (opcodeOf w).toNat = op.toNat) : opcodeOf w = op := BitVec.eq_of_toNat_eq h
  have hlegal {op : BitVec 4} (h : opcodeOf w = op) (hPV : op.toNat ∈ [0x1, 0x2, 0x7]) : ¬ reservedWord w :=
    not_reservedWord_of_twoFields (opcodeOf_toNat w ▸ h ▸ hPV)
  match h : (opcodeOf w).toNat with
  | 0 => exact decode_nop (hop 0x0#4 h) ▸ decodeN_result (hop 0x0#4 h) (by decide) rfl rfl
  | 1 =>
    have h := hop 0x1#4 h
    exact decode_beginStroke h ▸ .legal (hlegal h (by decide)) (hcoord _ _) (encodeP_of_fields h)
  | 2 =>
    have h := hop 0x2#4 h
    exact decode_extendStroke h ▸ .legal (hlegal h (by decide)) (hcoord _ _) (encodeP_of_fields h)
  | 3 => exact decode_endStroke (hop 0x3#4 h) ▸ decodeN_result (hop 0x3#4 h) (by decide) rfl rfl
  | 4 => exact decode_clear (hop 0x4#4 h) ▸ decodeN_result (hop 0x4#4 h) (by decide) rfl rfl
  | 5 => exact decode_setSize (hop 0x5#4 h) ▸ decodeS_result (hop 0x5#4 h)
  | 6 => exact decode_setMode (hop 0x6#4 h) ▸ decodeM_result (hop 0x6#4 h)
  | 7 =>
    have h := hop 0x7#4 h
    exact decode_setView h ▸ .legal (hlegal h (by decide)) (hview _ _) (encodeV_of_fields h)
  | 8 => exact decode_pack (hop 0x8#4 h) ▸ decodeN_result (hop 0x8#4 h) (by decide) rfl rfl
  | 9 => exact decode_unpack (hop 0x9#4 h) ▸ decodeN_result (hop 0x9#4 h) (by decide) rfl rfl
  | 10 => exact decode_encodeRle (hop 0xA#4 h) ▸ decodeN_result (hop 0xA#4 h) (by decide) rfl rfl
  | 11 => exact decode_decodeRle (hop 0xB#4 h) ▸ decodeN_result (hop 0xB#4 h) (by decide) rfl rfl
  | k + 12 =>
    have h : 0xC ≤ (opcodeOf w).toNat := by omega
    exact decode_reservedOpcode h ▸ .illegal _ (reservedWord_of_opcode h)

/-- A word that decodes is the word of the command, which is well-formed. -/
theorem encode_of_decode {w : Word} {i : Instr} (h : decode w = .ok i) : i.wellFormed = true ∧ encode i = w := by
  have hresult := decode_result w
  rw [h] at hresult
  cases hresult with
  | legal _ hwf henc => exact ⟨hwf, henc⟩

theorem decode_eq_error_of_reservedWord {w : Word} (h : reservedWord w) : ∃ e, decode w = .error e := by
  have hresult := decode_result w
  cases hd : decode w with
  | error e => exact ⟨e, rfl⟩
  | ok i =>
    rw [hd] at hresult
    cases hresult with
    | legal hlegal => exact absurd h hlegal

theorem decode_eq_ok_of_not_reservedWord {w : Word} (h : ¬ reservedWord w) : ∃ i, decode w = .ok i := by
  have hresult := decode_result w
  cases hd : decode w with
  | ok i => exact ⟨i, rfl⟩
  | error e =>
    rw [hd] at hresult
    cases hresult with
    | illegal _ hres => exact absurd hres h

/-! ### The rows of the opcode map (30 R88) -/

/-- What every row's columns say of its format: the mask covers the opcode and the reserved bits, and the match
has an opcode of the format and no other bit. -/
theorem opcodeMap_columns : ∀ r ∈ opcodeMap, r.mask = BitVec.allOnes 32 <<< r.format.operandBits ∧
    r.value.toNat / 2 ^ 28 ∈ r.format.opcodes ∧ r.value.toNat % 2 ^ 28 = 0 := by decide

/-- The matches of two rows differ on the bits that both masks cover. -/
theorem opcodeMap_separated : ∀ r ∈ opcodeMap, ∀ q ∈ opcodeMap, r.value &&& q.mask = q.value &&& r.mask → r = q := by
  decide

theorem opcodeMap_mnemonic_injective : ∀ r ∈ opcodeMap, ∀ q ∈ opcodeMap, r.mnemonic = q.mnemonic → r = q := by decide

theorem matchesWord_iff (r : OpcodeRow) (w : Word) : r.matchesWord w = true ↔ w &&& r.mask = r.value := beq_iff_eq

theorem row_unique_of_matches {r q : OpcodeRow} {w : Word} (hr : r ∈ opcodeMap) (hq : q ∈ opcodeMap)
    (hrw : r.matchesWord w = true) (hqw : q.matchesWord w = true) : r = q := by
  rw [matchesWord_iff] at hrw hqw
  refine opcodeMap_separated r hr q hq ?_
  rw [← hrw, ← hqw, BitVec.and_assoc, BitVec.and_assoc, BitVec.and_comm r.mask]

/-- The word of any command, well-formed or not, matches the row of its mnemonic. -/
theorem encode_matches_row (i : Instr) : Laws.EncodeMatchesRow.Statement i := by
  cases i with
  | nop => exact Laws.EncodeMatchesRow.nop
  | beginStroke px py => exact Laws.EncodeMatchesRow.beginStroke px py
  | extendStroke px py => exact Laws.EncodeMatchesRow.extendStroke px py
  | endStroke => exact Laws.EncodeMatchesRow.endStroke
  | clear => exact Laws.EncodeMatchesRow.clear
  | setSize sz => exact Laws.EncodeMatchesRow.setSize sz
  | setMode md => exact Laws.EncodeMatchesRow.setMode md
  | setView vw vh => exact Laws.EncodeMatchesRow.setView vw vh
  | pack => exact Laws.EncodeMatchesRow.pack
  | unpack => exact Laws.EncodeMatchesRow.unpack
  | encodeRle => exact Laws.EncodeMatchesRow.encodeRle
  | decodeRle => exact Laws.EncodeMatchesRow.decodeRle

theorem row_of_decode {w : Word} {i : Instr} (h : decode w = .ok i) :
    ∃ r ∈ opcodeMap, r.mnemonic = i.mnemonic ∧ r.matchesWord w = true := by
  obtain ⟨-, henc⟩ := encode_of_decode h
  exact henc ▸ encode_matches_row i

/-- Masking the low `k` bits off keeps the bits from `k` up. -/
theorem toNat_div_of_mask {w v : Word} {k : Nat} (h : w &&& BitVec.allOnes 32 <<< k = v) :
    w.toNat / 2 ^ k = v.toNat / 2 ^ k := by
  have hlt : w.toNat / 2 ^ k * 2 ^ k < 2 ^ 32 := (Nat.div_mul_le_self _ _).trans_lt w.isLt
  rw [← h, ← BitVec.shiftLeft_ushiftRight, BitVec.toNat_shiftLeft, BitVec.toNat_ushiftRight, Nat.shiftLeft_eq,
    Nat.shiftRight_eq_div_pow, Nat.mod_eq_of_lt hlt, Nat.mul_div_cancel _ (Nat.two_pow_pos k)]

/-- A value that agrees above a format's operands with one that holds an opcode alone has that opcode and no
reserved bit. -/
theorem Format.div_operandBits (f : Format) {a b : Nat} (h : a / 2 ^ f.operandBits = b / 2 ^ f.operandBits)
    (hb : b % 2 ^ 28 = 0) :
    a / 2 ^ 28 = b / 2 ^ 28 ∧ a / 2 ^ f.operandBits % 2 ^ (28 - f.operandBits) = 0 := by
  cases f <;> simp only [Format.operandBits] at h ⊢ <;> omega

theorem not_reservedWord_of_matches {r : OpcodeRow} {w : Word} (hr : r ∈ opcodeMap) (h : r.matchesWord w = true) :
    ¬ reservedWord w := by
  obtain ⟨hmask, hop, hpayload⟩ := opcodeMap_columns r hr
  rw [matchesWord_iff, hmask] at h
  obtain ⟨hopw, hreserved⟩ := r.format.div_operandBits (toNat_div_of_mask h) hpayload
  exact (reservedWord_iff_of_format (hopw ▸ hop)).not_left.mpr hreserved

end Sys2Proof
end

section
/-! The statements on the encoding (spec 30). -/

namespace Sys2Proof.Proofs

open Sys2Proof Sys2Proof.Machine

/-- Settles O1: the opcode of the word leads to its format, and the fields hold the operands (`decode_encode`). -/
theorem decodeOfEncodeIsTheCommand : Obligations.DecodeOfEncodeIsTheCommand := fun _ hwf => decode_encode hwf

/-- Settles O2: every branch of the decoder that accepts a word keeps all its bits (`decode_result`). -/
theorem encodeOfDecodedWordIsTheWord : Obligations.EncodeOfDecodedWordIsTheWord := fun _ _ h => encode_of_decode h

/-- Settles O3: a word that matches a row is not reserved and decodes; the row its command names matches it too, so
it is that row. -/
theorem opcodeMapRowSelectsTheCommand : Obligations.OpcodeMapRowSelectsTheCommand := by
  refine ⟨fun w r hr => ⟨fun hmatch => ?_, fun ⟨i, hd, hname⟩ => ?_⟩,
    fun w r hr q hq => row_unique_of_matches hr hq, fun w => ?_⟩
  · obtain ⟨i, hd⟩ := decode_eq_ok_of_not_reservedWord (not_reservedWord_of_matches hr hmatch)
    obtain ⟨q, hq, hname, hqmatch⟩ := row_of_decode hd
    exact ⟨i, hd, by rw [row_unique_of_matches hr hq hmatch hqmatch, hname]⟩
  · obtain ⟨q, hq, hqname, hqmatch⟩ := row_of_decode hd
    rwa [opcodeMap_mnemonic_injective r hr q hq (hname.symm.trans hqname.symm)]
  · rw [← Bool.not_eq_true, illegalWord_iff_reservedWord]
    constructor
    · rintro ⟨r, hr, hmatch⟩
      exact not_reservedWord_of_matches hr hmatch
    · intro hlegal
      obtain ⟨i, hd⟩ := decode_eq_ok_of_not_reservedWord hlegal
      obtain ⟨r, hr, -, hmatch⟩ := row_of_decode hd
      exact ⟨r, hr, hmatch⟩

/-- Settles O4: `decode_result` splits the words as R89 does, and `issueCommand` follows the result of `decode`. -/
theorem reservedWordsAreIllegalAndWriteOnlyResult : Obligations.ReservedWordsAreIllegalAndWriteOnlyResult := by
  refine fun w s => ⟨fun h => ?_, fun h => ?_, not_reservedWord_of_twoFields⟩
  · obtain ⟨e, he⟩ := decode_eq_error_of_reservedWord h
    exact issueCommand_of_error he s
  · obtain ⟨i, hd⟩ := decode_eq_ok_of_not_reservedWord h
    exact ⟨i, hd, issueCommand_of_ok hd s⟩

/-- Settles O5, by evaluating the decoder on each word. -/
theorem writtenOutWordsDecode : Obligations.WrittenOutWordsDecode := by
  unfold Obligations.WrittenOutWordsDecode
  decide

/-- Settles O7: the assembled word decodes to its command (`decode_encode`), which the step then runs. -/
theorem assembledCommandRunsAsItself : Obligations.AssembledCommandRunsAsItself :=
  fun _ _ _ hp hwf => step_of_command hp (decode_encode hwf)

end Sys2Proof.Proofs
end

section
/-! Facts about issuing a command that the statements on spec 40 use: what issuing any word can do, that no run
stops, that the code already in RESULT does not matter, and the one word of a command of format N. -/

namespace Sys2Proof.Machine

/-! ### What issuing a word can do (40 R100, R104) -/

theorem CommandEffect.resultCode_eq_ok {i : Instr} {s t : State} (h : CommandEffect s i t) (hi : i ≠ .decodeRle) :
    t.resultCode = 0#4 := by
  cases h with
  | decodeRle => exact absurd rfl hi
  | _ => rfl

/-- A command answers a next state: it completes with OK, or it is DECODE and raises the code of its frame. -/
theorem exec_completes_or_raises (i : Instr) (s : State) : ∃ t, exec i s = .next t ∧
    (t.resultCode = 0#4 ∨ i = .decodeRle ∧ t = s.raise (s.validate s.frameLen)) := by
  by_cases hi : i = .decodeRle
  · subst hi
    rcases execDecode_cases s with ⟨-, hok⟩ | ⟨-, hraise⟩
    · exact ⟨_, hok, .inl rfl⟩
    · exact ⟨_, hraise, .inr ⟨rfl, rfl⟩⟩
  · obtain ⟨t, ht, heffect⟩ := exec_effect i s
    exact ⟨t, ht, .inl (heffect.resultCode_eq_ok hi)⟩

/-- Everything issuing a word can do to RESULT: it completes with OK, or raises ILLEGAL, or is DECODE's and raises the
code of the frame. -/
theorem issueCommand_completes_or_raises (w : Word) (s : State) : ∃ t, issueCommand w s = .next t ∧
    (t.resultCode = 0#4 ∨ t = s.raise .illegal ∨
      decode w = .ok .decodeRle ∧ t = s.raise (s.validate s.frameLen)) := by
  cases hd : decode w with
  | error e => exact ⟨_, issueCommand_of_error hd s, .inr (.inl rfl)⟩
  | ok i =>
    rw [issueCommand_of_ok hd]
    obtain ⟨t, ht, hok | ⟨rfl, hraise⟩⟩ := exec_completes_or_raises i s
    · exact ⟨t, ht, .inl hok⟩
    · exact ⟨t, ht, .inr (.inr ⟨rfl, hraise⟩)⟩

theorem step_answers_next (s : State) : SafeStep s := by
  rcases step_cases s with ⟨-, hidle⟩ | ⟨w, rest, -, hcmd⟩ | ⟨x, rest, t, -, hdata, -⟩ | ⟨cut, rest, -, hreset⟩
  · exact ⟨s, hidle⟩
  · obtain ⟨t, ht, -⟩ := issueCommand_completes_or_raises w { s with pending := rest }
    exact ⟨t, hcmd.trans ht⟩
  · exact ⟨t, hdata⟩
  · exact ⟨_, hreset⟩

/-- A machine whose every step answers a next state never stops. -/
theorem core_run_answers_next {M : Host.Core} (hstep : ∀ s, ∃ t, M.step s = .next t) (n : Nat) (s : M.State) :
    ∃ t, M.run n s = .next t := by
  induction n generalizing s with
  | zero => exact ⟨s, rfl⟩
  | succ n ih =>
    obtain ⟨t, ht⟩ := hstep s
    rw [core_run_succ ht]
    exact ih t

/-! ### The code an earlier command left (40 R105) -/

/-- A loop whose every turn carries RESULT.CODE along without reading it does so as a whole. -/
theorem foldl_comm_resultCode {α : Type} {f : State → α → State} {c : BitVec 4}
    (hf : ∀ s a, f { s with resultCode := c } a = { f s a with resultCode := c }) (l : List α) (s : State) :
    l.foldl f { s with resultCode := c } = { l.foldl f s with resultCode := c } :=
  List.foldl_hom (g₁ := f) (g₂ := f) (fun t : State => { t with resultCode := c }) hf

theorem State.plot_comm_resultCode (s : State) (c : BitVec 4) (p : Point) :
    ({ s with resultCode := c } : State).plot p = { s.plot p with resultCode := c } :=
  foldl_comm_resultCode (fun _ _ => rfl) _ s

theorem State.drawLine_comm_resultCode (s : State) (c : BitVec 4) (a b : Point) :
    ({ s with resultCode := c } : State).drawLine a b = { s.drawLine a b with resultCode := c } :=
  foldl_comm_resultCode (fun t p => t.plot_comm_resultCode c p) _ s

/-- No command reads RESULT.CODE, and each ends by overwriting it. Only the loops that paint pass a state on that still
holds the earlier code. -/
theorem exec_ignores_resultCode (i : Instr) (s : State) (c : BitVec 4) :
    exec i { s with resultCode := c } = exec i s := by
  cases i with
  | beginStroke px py =>
    rw [exec, execBegin, State.plot_comm_resultCode]
    rfl
  | extendStroke px py =>
    rw [exec, execExtend, State.drawLine_comm_resultCode]
    rfl
  | _ => rfl

end Sys2Proof.Machine

namespace Sys2Proof

/-! ### The word of a command (30 R82, R91) -/

theorem decode_eq_ok_iff {i : Instr} (hwf : i.wellFormed = true) (w : Word) : decode w = .ok i ↔ w = encode i := by
  constructor
  · intro h
    exact (encode_of_decode h).2.symm
  · rintro rfl
    exact decode_encode hwf

/-- A word of a format N opcode other than the command's own has a reserved bit set. -/
theorem decodeN_of_ne_encodeN {w : Word} {op : BitVec 4} (hop : opcodeOf w = op) (hne : w ≠ encodeN op) (i : Instr) :
    decodeN w i = .error .reservedBits :=
  if_neg fun hpayload => hne (encodeN_of_fields hop hpayload).symm

end Sys2Proof
end

section
/-! The statements on issuing a command and its result (spec 40). -/

namespace Sys2Proof.Proofs

open Sys2Proof Sys2Proof.Machine

/-- Settles O10: each case of `step_cases` answers a next state, and a run is such steps one after another. -/
theorem everyStepAnswersNext : Obligations.EveryStepAnswersNext :=
  ⟨step_answers_next, core_run_answers_next (M := core) step_answers_next⟩

/-- Settles O11: the three cases of `issueCommand_completes_or_raises`, in two of which `raise` writes RESULT alone. -/
theorem failedCommandWritesOnlyResult : Obligations.FailedCommandWritesOnlyResult := by
  intro w s
  obtain ⟨t, ht, hok | rfl | ⟨hdecode, rfl⟩⟩ := issueCommand_completes_or_raises w s
  · exact ⟨t, ht, .inl hok, fun hne => absurd hok hne⟩
  · exact ⟨_, ht, .inr rfl, fun _ hne => absurd rfl hne⟩
  · exact ⟨_, ht, .inr rfl, fun _ _ => hdecode⟩

/-- Settles O12: decoding does not see the state, and neither a command (`exec_ignores_resultCode`) nor an illegal word
reads the code it overwrites. -/
theorem earlierResultAffectsNoCommand : Obligations.EarlierResultAffectsNoCommand := by
  intro w s c
  cases hd : decode w with
  | ok i => rw [issueCommand_of_ok hd, issueCommand_of_ok hd, exec_ignores_resultCode]
  | error e =>
    rw [issueCommand_of_error hd, issueCommand_of_error hd]
    rfl

/-- Settles O8: the step issues the word, which does not decode, so it raises ILLEGAL. -/
theorem stepOnReservedWordWritesOnlyResult : Obligations.StepOnReservedWordWritesOnlyResult := by
  intro s rest w hp hreserved
  obtain ⟨e, he⟩ := decode_eq_error_of_reservedWord hreserved
  rw [step_of_access hp, performAccess, memWrite_command, issueCommand_of_error he]
  rfl

/-- Settles O13: NOP completes at once, and 0 is the one word of its opcode with no reserved bit set. -/
theorem nopWritesOnlyOk : Obligations.NopWritesOnlyOk := by
  refine ⟨fun s => rfl, decode_eq_ok_iff (i := .nop) rfl, fun w hop hne => ?_⟩
  rw [decode_nop hop]
  exact decodeN_of_ne_encodeN hop hne .nop

end Sys2Proof.Proofs
end

section
/-! Facts about the stepping loop of a line that the statements on spec 41 use: the closed form of a line whose major
axis is x, the exchange of the two axes, and what both give for every line. -/

namespace Sys2Proof.Machine

/-! ### The minor axis: the quotient `i * E / D`, rounded -/

/-- How far a line of `D` steps along the major axis and `E` along the minor one has gone along the minor axis after
`i` steps: `i * E / D` to the nearest integer, halves upward. -/
def minorOffset (D E i : Nat) : Nat := (2 * (i * E) + D) / (2 * D)

/-- The error term of R125 after `i` steps along the major axis. -/
def lineError (D E i : Nat) : Int := (minorOffset D E i + 1) * D - (i + 1) * E

theorem minorOffset_bounds {D : Nat} (hD : 0 < D) (E i : Nat) :
    2 * (minorOffset D E i * D) ≤ 2 * (i * E) + D ∧ 2 * (i * E) < 2 * (minorOffset D E i * D) + D := by
  have hle := Nat.div_mul_le_self (2 * (i * E) + D) (2 * D)
  have hlt := Nat.lt_div_mul_add (a := 2 * (i * E) + D) (show 0 < 2 * D by omega)
  rw [← minorOffset, Nat.mul_left_comm _ 2] at hle hlt
  omega

/-- The rounded quotient is the only offset within half a step. -/
theorem minorOffset_eq_of_bounds {D E i j : Nat} (hle : 2 * (j * D) ≤ 2 * (i * E) + D)
    (hlt : 2 * (i * E) < 2 * (j * D) + D) : minorOffset D E i = j := by
  refine Nat.div_eq_of_lt_le ?_ ?_
  · rwa [Nat.mul_left_comm _ 2]
  · rw [Nat.mul_left_comm _ 2, Nat.add_mul]
    omega

theorem minorOffset_zero (D E : Nat) : minorOffset D E 0 = 0 := by
  rcases D.eq_zero_or_pos with rfl | hD
  · exact Nat.div_zero _
  · exact minorOffset_eq_of_bounds (by omega) (by omega)

theorem lineError_zero (D E : Nat) : lineError D E 0 = D + -E := by
  simp [lineError, minorOffset_zero, sub_eq_add_neg]

section
variable {D E : Nat} (h : E ≤ D)
include h

theorem minorOffset_end : minorOffset D E D = E := by
  rcases D.eq_zero_or_pos with rfl | hD
  · rw [minorOffset_zero, Nat.le_zero.mp h]
  · have hcomm : E * D = D * E := Nat.mul_comm E D
    exact minorOffset_eq_of_bounds (by omega) (by omega)

theorem minorOffset_le {i : Nat} (hi : i ≤ D) : minorOffset D E i ≤ E :=
  calc minorOffset D E i ≤ minorOffset D E D :=
        Nat.div_le_div_right (Nat.add_le_add_right (Nat.mul_le_mul_left 2 (Nat.mul_le_mul_right E hi)) D)
    _ = E := minorOffset_end h

/-- The offset is within half a step of the exact quotient. -/
theorem minorOffset_near (i : Nat) : 2 * ((i : Int) * E - minorOffset D E i * D).natAbs ≤ D := by
  rcases D.eq_zero_or_pos with rfl | hD
  · simp [Nat.le_zero.mp h]
  · have hbounds := minorOffset_bounds hD E i
    zify at hbounds
    omega

/-- The loop of R125 moves along the major axis at every turn. -/
theorem neg_le_two_mul_lineError (i : Nat) : -(E : Int) ≤ 2 * lineError D E i := by
  have hnear := minorOffset_near h i
  rw [lineError, Int.add_mul, Int.add_mul]
  omega

/-- The loop of R125 moves along the minor axis exactly when the rounded quotient does. -/
theorem minorOffset_succ (hD : 0 < D) (i : Nat) :
    minorOffset D E (i + 1) = minorOffset D E i + if 2 * lineError D E i ≤ D then 1 else 0 := by
  have hbounds := minorOffset_bounds hD E i
  have herror : lineError D E i = (minorOffset D E i * D : Nat) + D - (i * E : Nat) - E := by
    rw [lineError]
    push_cast
    ring
  split
  next hstep => refine minorOffset_eq_of_bounds ?_ ?_ <;> simp only [Nat.add_mul, Nat.one_mul] <;> omega
  next hstay => refine minorOffset_eq_of_bounds ?_ ?_ <;> simp only [Nat.add_mul, Nat.one_mul, Nat.add_zero] <;> omega

theorem lineError_succ (hD : 0 < D) (i : Nat) :
    lineError D E (i + 1) = lineError D E i + -E + if 2 * lineError D E i ≤ D then (D : Int) else 0 := by
  rw [lineError, minorOffset_succ h hD, lineError]
  split <;> push_cast <;> ring

end

/-! ### The loop, turn by turn -/

section
variable {ex ey dx dy sx sy x y err : Int} (fuel : Nat)

theorem lineLoop_at_end (hx : x = ex) (hy : y = ey) : lineLoop ex ey dx dy sx sy (fuel + 1) x y err = [⟨x, y⟩] := by
  rw [lineLoop, if_pos ⟨hx, hy⟩]

theorem lineLoop_before_end (h : ¬ (x = ex ∧ y = ey)) :
    lineLoop ex ey dx dy sx sy (fuel + 1) x y err =
      ⟨x, y⟩ :: lineLoop ex ey dx dy sx sy fuel (if dy ≤ 2 * err then x + sx else x)
        (if 2 * err ≤ dx then y + sy else y)
        (err + (if dy ≤ 2 * err then dy else 0) + (if 2 * err ≤ dx then dx else 0)) := by
  rw [lineLoop, if_neg h]

end

/-- Started `k` turns before its end, with the error term of that turn, the loop lists the closed form. -/
theorem lineLoop_eq_map {D E : Nat} (h : E ≤ D) {sx : Int} (hsx : sx ≠ 0) (sy x₀ y₀ : Int) {i k fuel : Nat}
    (hi : i + k = D) (hfuel : k ≤ fuel) :
    lineLoop (x₀ + sx * D) (y₀ + sy * E) D (-E) sx sy (fuel + 1) (x₀ + sx * i)
        (y₀ + sy * minorOffset D E i) (lineError D E i) =
      (List.range' i (k + 1)).map fun j => ⟨x₀ + sx * j, y₀ + sy * minorOffset D E j⟩ := by
  induction k generalizing i fuel with
  | zero =>
    obtain rfl : i = D := hi
    rw [lineLoop_at_end fuel rfl (by rw [minorOffset_end h])]
    rfl
  | succ k ih =>
    have hD : 0 < D := by omega
    have hne : ¬ (x₀ + sx * i = x₀ + sx * D ∧ y₀ + sy * minorOffset D E i = y₀ + sy * E) := by
      rintro ⟨hx, -⟩
      have hiD := mul_left_cancel₀ hsx (add_left_cancel hx)
      omega
    obtain ⟨fuel, rfl⟩ := Nat.exists_eq_add_one_of_ne_zero (show fuel ≠ 0 by omega)
    have hx : x₀ + sx * i + sx = x₀ + sx * (i + 1 : Nat) := by
      push_cast
      ring
    have hy : (if 2 * lineError D E i ≤ D then y₀ + sy * minorOffset D E i + sy else y₀ + sy * minorOffset D E i) =
        y₀ + sy * minorOffset D E (i + 1) := by
      rw [minorOffset_succ h hD]
      split <;> push_cast <;> ring
    rw [lineLoop_before_end _ hne, if_pos (neg_le_two_mul_lineError h i), if_pos (neg_le_two_mul_lineError h i), hx, hy,
      ← lineError_succ h hD, ih (by omega) (by omega), List.range'_succ (s := i), List.map_cons]

/-! ### The exchange of the two axes -/

/-- A point with its coordinates exchanged. -/
def Point.transpose (p : Point) : Point := ⟨p.y, p.x⟩

/-- The loop treats the axes alike: exchanging them negates the error term. -/
theorem lineLoop_transpose (ex ey dx dy sx sy : Int) (fuel : Nat) (x y err : Int) :
    lineLoop ex ey dx dy sx sy fuel x y err =
      (lineLoop ey ex (-dy) (-dx) sy sx fuel y x (-err)).map Point.transpose := by
  induction fuel generalizing x y err with
  | zero => rfl
  | succ fuel ih =>
    by_cases hend : x = ex ∧ y = ey
    · rw [lineLoop_at_end fuel hend.1 hend.2, lineLoop_at_end fuel hend.2 hend.1]
      rfl
    · have hx : -dx ≤ 2 * -err ↔ 2 * err ≤ dx := by omega
      have hy : 2 * -err ≤ -dy ↔ dy ≤ 2 * err := by omega
      have herror : -err + (if 2 * err ≤ dx then -dx else 0) + (if dy ≤ 2 * err then -dy else 0) =
          -(err + (if dy ≤ 2 * err then dy else 0) + (if 2 * err ≤ dx then dx else 0)) := by
        split <;> split <;> omega
      rw [lineLoop_before_end fuel hend, lineLoop_before_end fuel (fun h => hend h.symm), ih]
      simp only [hx, hy, herror, List.map_cons]
      rfl

theorem bresenham_transpose (a b : Point) :
    bresenham a b = (bresenham a.transpose b.transpose).map Point.transpose := by
  unfold bresenham
  rw [lineLoop_transpose]
  simp only [Point.transpose]
  congr 2 <;> omega

/-! ### The course of a line (41 R125, R126) -/

/-- The number of steps of a line: the larger of its extents along the two axes. -/
def majorLength (a b : Point) : Nat := max (b.x - a.x).natAbs (b.y - a.y).natAbs

/-- `f i` is the point of a line from `a` to `b` after `i` steps. -/
structure LineCourse (a b : Point) (f : Nat → Point) : Prop where
  /-- the line begins at `a` -/
  start : f 0 = a
  /-- the line ends at `b` -/
  finish : f (majorLength a b) = b
  /-- no point is met twice -/
  injective : Function.Injective f
  /-- a step moves by at most 1 along each axis -/
  adjacent : ∀ i < majorLength a b,
    ((f (i + 1)).x - (f i).x).natAbs ≤ 1 ∧ ((f (i + 1)).y - (f i).y).natAbs ≤ 1
  /-- the line stays in the box of its endpoints -/
  inBox : ∀ i ≤ majorLength a b,
    min a.x b.x ≤ (f i).x ∧ (f i).x ≤ max a.x b.x ∧ min a.y b.y ≤ (f i).y ∧ (f i).y ≤ max a.y b.y
  /-- the line stays within half a pixel of the segment along the minor axis -/
  near : ∀ i, 2 * (((f i).x - a.x) * (b.y - a.y) - ((f i).y - a.y) * (b.x - a.x)).natAbs ≤ majorLength a b

theorem LineCourse.transpose {a b : Point} {f : Nat → Point} (h : LineCourse a.transpose b.transpose f) :
    LineCourse a b (fun i => (f i).transpose) := by
  have hlength : majorLength a.transpose b.transpose = majorLength a b := Nat.max_comm _ _
  obtain ⟨hstart, hfinish, hinj, hadj, hbox, hnear⟩ := h
  rw [hlength] at hfinish hadj hbox hnear
  refine ⟨congrArg Point.transpose hstart, congrArg Point.transpose hfinish, fun i j hij => ?_,
    fun i hi => (hadj i hi).symm, fun i hi => ?_, fun i => ?_⟩
  · exact hinj (congrArg Point.transpose hij)
  · obtain ⟨hx, hx', hy, hy'⟩ := hbox i hi
    exact ⟨hy, hy', hx, hx'⟩
  · rw [← Int.natAbs_neg, neg_sub]
    exact hnear i

/-- The direction of the steps from `u` to `v` (41 R125). -/
def stepSign (u v : Int) : Int := if u < v then 1 else -1

theorem stepSign_mul_natAbs (u v : Int) : stepSign u v * (v - u).natAbs = v - u := by
  unfold stepSign
  split <;> omega

theorem natAbs_stepSign (u v : Int) : (stepSign u v).natAbs = 1 := by
  unfold stepSign
  split <;> rfl

theorem stepSign_ne_zero (u v : Int) : stepSign u v ≠ 0 := by
  unfold stepSign
  split <;> decide

/-- A coordinate `n` steps from `u` towards `v`, not past `v`, lies between the two. -/
theorem between_of_stepSign (u v : Int) {n : Nat} (hn : n ≤ (v - u).natAbs) :
    min u v ≤ u + stepSign u v * n ∧ u + stepSign u v * n ≤ max u v := by
  unfold stepSign
  split <;> omega

/-- The signs of the two directions factor out of a cross product. -/
theorem cross_of_signs {sx sy dx dy D E : Int} (hx : sx * D = dx) (hy : sy * E = dy) (i j : Int) :
    sx * i * dy - sy * j * dx = sx * sy * (i * E - j * D) := by
  rw [← hx, ← hy]
  ring

/-- The closed form of a line whose major axis is x. -/
def shallowPoint (a b : Point) (i : Nat) : Point :=
  ⟨a.x + stepSign a.x b.x * i,
    a.y + stepSign a.y b.y * minorOffset (b.x - a.x).natAbs (b.y - a.y).natAbs i⟩

section
variable {a b : Point} (h : (b.y - a.y).natAbs ≤ (b.x - a.x).natAbs)
include h

theorem majorLength_of_shallow : majorLength a b = (b.x - a.x).natAbs := Nat.max_eq_left h

theorem bresenham_of_shallow : bresenham a b = (List.range (majorLength a b + 1)).map (shallowPoint a b) := by
  have hloop := lineLoop_eq_map h (stepSign_ne_zero a.x b.x) (stepSign a.y b.y) a.x a.y (Nat.zero_add _)
    (Nat.le_add_right _ (b.y - a.y).natAbs)
  rw [stepSign_mul_natAbs, stepSign_mul_natAbs, add_sub_cancel, add_sub_cancel, ← List.range_eq_range',
    minorOffset_zero, lineError_zero, Nat.cast_zero, mul_zero, add_zero, mul_zero, add_zero] at hloop
  rw [majorLength_of_shallow h]
  exact hloop

theorem lineCourse_of_shallow : LineCourse a b (shallowPoint a b) := by
  have hlength := majorLength_of_shallow h
  constructor
  case start => simp [shallowPoint, minorOffset_zero]
  case finish =>
    rw [hlength, shallowPoint, minorOffset_end h, stepSign_mul_natAbs, stepSign_mul_natAbs, add_sub_cancel,
      add_sub_cancel]
  case injective =>
    intro i j hij
    have hx : a.x + stepSign a.x b.x * i = a.x + stepSign a.x b.x * j := congrArg Point.x hij
    exact Int.ofNat_inj.mp (mul_left_cancel₀ (stepSign_ne_zero _ _) (add_left_cancel hx))
  case adjacent =>
    intro i hi
    have hsucc := minorOffset_succ h (by omega) i
    simp only [shallowPoint, hsucc, add_sub_add_left_eq_sub, ← mul_sub, Int.natAbs_mul, natAbs_stepSign, one_mul]
    split <;> omega
  case inBox =>
    intro i hi
    rw [hlength] at hi
    obtain ⟨hx, hx'⟩ := between_of_stepSign a.x b.x hi
    obtain ⟨hy, hy'⟩ := between_of_stepSign a.y b.y (minorOffset_le h hi)
    exact ⟨hx, hx', hy, hy'⟩
  case near =>
    intro i
    rw [hlength, shallowPoint, add_sub_cancel_left, add_sub_cancel_left,
      cross_of_signs (stepSign_mul_natAbs _ _) (stepSign_mul_natAbs _ _), Int.natAbs_mul, Int.natAbs_mul,
      natAbs_stepSign, natAbs_stepSign, one_mul, one_mul]
    exact minorOffset_near h i

end

/-- Every line follows a course: a steep one is a shallow one with the axes exchanged. -/
theorem bresenham_course (a b : Point) :
    ∃ f, LineCourse a b f ∧ bresenham a b = (List.range (majorLength a b + 1)).map f := by
  rcases Nat.le_total (b.y - a.y).natAbs (b.x - a.x).natAbs with h | h
  · exact ⟨_, lineCourse_of_shallow h, bresenham_of_shallow h⟩
  · refine ⟨_, (lineCourse_of_shallow (a := a.transpose) (b := b.transpose) h).transpose, ?_⟩
    rw [bresenham_transpose, bresenham_of_shallow (a := a.transpose) (b := b.transpose) h, List.map_map, majorLength,
      Nat.max_comm]
    rfl

/-! ### The points of a line (41 R125, R126) -/

/-- What R126 and R125 say of the points of a line between `a` and `b`, their order apart. -/
structure LineBand (a b : Point) (l : List Point) : Prop where
  /-- the exact count -/
  length : l.length = max (b.x - a.x).natAbs (b.y - a.y).natAbs + 1
  /-- every point is in the box of the endpoints -/
  inBox : ∀ p ∈ l, min a.x b.x ≤ p.x ∧ p.x ≤ max a.x b.x ∧ min a.y b.y ≤ p.y ∧ p.y ≤ max a.y b.y
  /-- every point is within half a pixel of the segment along the minor axis -/
  near : ∀ p ∈ l, 2 * ((p.x - a.x) * (b.y - a.y) - (p.y - a.y) * (b.x - a.x)).natAbs ≤
    max (b.x - a.x).natAbs (b.y - a.y).natAbs

/-- The points of a line listed in order from `a` to `b`. -/
structure LineList (a b : Point) (l : List Point) : Prop extends LineBand a b l where
  /-- the first point -/
  head : l.head? = some a
  /-- the last point -/
  last : l.getLast? = some b
  /-- no point appears twice -/
  nodup : l.Nodup
  /-- consecutive points differ by at most 1 along each axis -/
  adjacent : l.IsChain fun p q => (q.x - p.x).natAbs ≤ 1 ∧ (q.y - p.y).natAbs ≤ 1

/-- Which endpoint is named first matters only for the order of the points. -/
theorem LineBand.symm {a b : Point} {l : List Point} (h : LineBand b a l) : LineBand a b l := by
  have hx : (a.x - b.x).natAbs = (b.x - a.x).natAbs := by omega
  have hy : (a.y - b.y).natAbs = (b.y - a.y).natAbs := by omega
  constructor
  case length => rw [h.length, hx, hy]
  case inBox =>
    intro p hp
    rw [min_comm a.x, max_comm a.x, min_comm a.y, max_comm a.y]
    exact h.inBox p hp
  case near =>
    intro p hp
    have hcross : (p.x - a.x) * (b.y - a.y) - (p.y - a.y) * (b.x - a.x) =
        -((p.x - b.x) * (a.y - b.y) - (p.y - b.y) * (a.x - b.x)) := by ring
    rw [hcross, Int.natAbs_neg, ← hx, ← hy]
    exact h.near p hp

theorem LineCourse.lineBand {a b : Point} {f : Nat → Point} (h : LineCourse a b f) :
    LineBand a b ((List.range (majorLength a b + 1)).map f) := by
  constructor
  case length => rw [List.length_map, List.length_range, majorLength]
  case inBox =>
    intro p hp
    obtain ⟨i, hi, rfl⟩ := List.mem_map.mp hp
    exact h.inBox i (Nat.le_of_lt_succ (List.mem_range.mp hi))
  case near =>
    intro p hp
    obtain ⟨i, -, rfl⟩ := List.mem_map.mp hp
    exact h.near i

theorem LineCourse.lineList {a b : Point} {f : Nat → Point} (h : LineCourse a b f) :
    LineList a b ((List.range (majorLength a b + 1)).map f) where
  toLineBand := h.lineBand
  head := by rw [List.range_succ_eq_map, List.map_cons, List.head?_cons, h.start]
  last := by rw [List.range_succ, List.map_append, List.map_singleton, List.getLast?_concat, h.finish]
  nodup := List.nodup_range.map h.injective
  adjacent := (List.isChain_map f).mpr ((List.isChain_range_succ _ _).mpr h.adjacent)

theorem bresenham_lineList (a b : Point) : LineList a b (bresenham a b) := by
  obtain ⟨f, hcourse, heq⟩ := bresenham_course a b
  exact heq ▸ hcourse.lineList

theorem linePoints_of_precedes {a b : Point} (h : b.precedes a = true) : linePoints a b = bresenham b a := if_pos h

theorem linePoints_of_not_precedes {a b : Point} (h : ¬ b.precedes a = true) : linePoints a b = bresenham a b :=
  if_neg h

theorem Point.precedes_iff (b a : Point) : b.precedes a = true ↔ b.x < a.x ∨ b.x = a.x ∧ b.y < a.y := decide_eq_true_iff

theorem Point.precedes_asymm {a b : Point} (h : b.precedes a = true) : ¬ a.precedes b = true := by
  rw [Point.precedes_iff] at h ⊢
  omega

theorem Point.eq_of_not_precedes {a b : Point} (hba : ¬ b.precedes a = true) (hab : ¬ a.precedes b = true) : a = b := by
  obtain ⟨xa, ya⟩ := a
  obtain ⟨xb, yb⟩ := b
  simp only [Point.precedes_iff, Point.mk.injEq] at hba hab ⊢
  omega

/-- The canonical order makes a line the same in both directions. -/
theorem linePoints_comm (a b : Point) : linePoints a b = linePoints b a := by
  by_cases hba : b.precedes a = true
  · rw [linePoints_of_precedes hba, linePoints_of_not_precedes (Point.precedes_asymm hba)]
  · by_cases hab : a.precedes b = true
    · rw [linePoints_of_not_precedes hba, linePoints_of_precedes hab]
    · rw [Point.eq_of_not_precedes hba hab]

/-- A line is listed from its smaller endpoint in canonical order to its larger one. -/
theorem linePoints_lineList (a b : Point) :
    LineList (if b.precedes a then b else a) (if b.precedes a then a else b) (linePoints a b) := by
  by_cases h : b.precedes a = true
  · rw [if_pos h, if_pos h, linePoints_of_precedes h]
    exact bresenham_lineList b a
  · rw [if_neg h, if_neg h, linePoints_of_not_precedes h]
    exact bresenham_lineList a b

theorem linePoints_lineBand (a b : Point) : LineBand a b (linePoints a b) := by
  by_cases h : b.precedes a = true
  · rw [linePoints_of_precedes h]
    exact (bresenham_lineList b a).toLineBand.symm
  · rw [linePoints_of_not_precedes h]
    exact (bresenham_lineList a b).toLineBand

theorem left_mem_linePoints (a b : Point) : a ∈ linePoints a b := by
  by_cases h : b.precedes a = true
  · rw [linePoints_of_precedes h]
    exact List.mem_of_getLast? (bresenham_lineList b a).last
  · rw [linePoints_of_not_precedes h]
    exact List.mem_of_head? (bresenham_lineList a b).head

end Sys2Proof.Machine
end

section
/-! Facts about the Rasterizer's operands and strokes that the statements on spec 41 use: the mapped point as a floor,
the stored brush and VIEW fields, and what a list of squares paints. -/

namespace Sys2Proof.Machine

/-! ### Operands (41 R120, R132 to R134) -/

/-- R120: the mapped coordinate is the floor of the exact quotient, clamped to the axis. -/
theorem mapCoord_eq_floor (p : Int) (view : Nat) {n : Nat} (hn : 0 < n) :
    mapCoord p view n = max 0 (min ((n : Int) - 1) ⌊((p * n : Int) : ℚ) / (view : ℚ)⌋) := by
  rw [mapCoord, clamp_eq_max_min (by omega), Rat.floor_intCast_div_natCast]

/-- A displayed size equal to the axis maps every position to itself. -/
theorem mapCoord_self {p : Int} {n : Nat} (hlo : 0 ≤ p) (hhi : p < n) : mapCoord p n n = p := by
  rw [mapCoord, Int.mul_ediv_cancel _ (by omega), clamp_eq_max_min (by omega)]
  omega

theorem clampSize_eq (sz : Nat) : clampSize sz = BitVec.ofNat 4 (max 1 (min 10 sz)) := by
  rw [← clampSize_toNat, BitVec.ofNat_toNat, BitVec.setWidth_eq]

theorem viewField_eq {v : Nat} (h : v ≤ 16383) : viewField v = BitVec.ofNat 14 (max v 1) := by
  have hzero : BitVec.ofNat 14 v = 0#14 ↔ v = 0 := by
    rw [← BitVec.toNat_inj, BitVec.toNat_ofNat, BitVec.toNat_zero, Nat.mod_eq_of_lt (by omega)]
  rcases v.eq_zero_or_pos with rfl | hv
  · rfl
  · rw [viewField, if_neg (mt hzero.mp hv.ne'), Nat.max_eq_left hv]

theorem modeField_eq (w : Word) : modeField w = if w.getLsbD 0 then .erase else .draw := by
  have hbit : w.extractLsb' 0 1 = BitVec.ofBool (w.getLsbD 0) := by
    ext i hi
    obtain rfl : i = 0 := by omega
    simp
  rw [modeField, hbit]
  cases w.getLsbD 0 <;> rfl

/-! ### What a list of squares paints (41 R123, R124, R127) -/

/-- `u` shows the brush squares of `s` at the points of `l` painted over the canvas of `s`. -/
def Painted (s : State) (l : List Point) (u : State) : Prop :=
  ∀ x y : Nat, x < 128 → y < 64 →
    ((∃ p ∈ l, s.inSquare p x y) → u.pixel x y = s.plotValue) ∧
      ((∀ p ∈ l, ¬ s.inSquare p x y) → u.pixel x y = s.pixel x y)

theorem State.painted_plot (s : State) (c : Point) : Painted s [c] (s.plot c) :=
  fun _ _ hx hy => State.foldl_plot_pixel [c] s hx hy

theorem State.painted_drawLine (s : State) (a b : Point) : Painted s (linePoints a b) (s.drawLine a b) :=
  fun _ _ hx hy => State.foldl_plot_pixel (linePoints a b) s hx hy

section
variable {s t u : State} {l l' : List Point}

/-- Only the canvas of the painted state matters. -/
theorem Painted.congr (h : Painted s l t) (hcanvas : u.canvas = t.canvas) : Painted s l u := fun x y hx hy => by
  rw [State.pixel_congr hcanvas]
  exact h x y hx hy

/-- Painting twice with the same brush paints the squares of both lists. -/
theorem Painted.trans (h : Painted s l t) (h' : Painted t l' u) (hsize : t.brushSize = s.brushSize)
    (hmode : t.brushMode = s.brushMode) : Painted s (l ++ l') u := by
  have hsquare : ∀ p x y, t.inSquare p x y ↔ s.inSquare p x y := fun p x y => by
    rw [State.inSquare, hsize, State.inSquare]
  have hvalue : t.plotValue = s.plotValue := by rw [State.plotValue_eq, hmode, State.plotValue_eq]
  intro x y hx hy
  obtain ⟨hin, hout⟩ := h x y hx hy
  obtain ⟨hin', hout'⟩ := h' x y hx hy
  simp only [hsquare, hvalue] at hin' hout'
  refine ⟨fun hcover => ?_, fun hcover => ?_⟩
  · by_cases hlater : ∃ p ∈ l', s.inSquare p x y
    · exact hin' hlater
    · rw [hout' fun p hp hq => hlater ⟨p, hp, hq⟩]
      obtain ⟨p, hp, hq⟩ := hcover
      exact hin ⟨p, (List.mem_append.mp hp).resolve_right fun hp' => hlater ⟨p, hp', hq⟩, hq⟩
  · rw [hout' fun p hp => hcover p (List.mem_append_right l hp)]
    exact hout fun p hp => hcover p (List.mem_append_left l' hp)

/-- The order and the number of the squares do not matter. -/
theorem Painted.of_mem_iff (h : Painted s l t) (hmem : ∀ p, p ∈ l ↔ p ∈ l') : Painted s l' t := fun x y hx hy => by
  simpa only [hmem] using h x y hx hy

theorem Painted.pixel_eq (ht : Painted s l t) (hu : Painted s l u) {x y : Nat} (hx : x < 128) (hy : y < 64) :
    t.pixel x y = u.pixel x y := by
  obtain ⟨htin, htout⟩ := ht x y hx hy
  obtain ⟨huin, huout⟩ := hu x y hx hy
  by_cases hcover : ∃ p ∈ l, s.inSquare p x y
  · rw [htin hcover, huin hcover]
  · have hfree : ∀ p ∈ l, ¬ s.inSquare p x y := fun p hp hq => hcover ⟨p, hp, hq⟩
    rw [htout hfree, huout hfree]

/-- Canonical canvases with the same pixels are the same data. -/
theorem canvas_eq_of_pixel_eq (ht : Memory.wf .canvas t.canvas = true) (hu : Memory.wf .canvas u.canvas = true)
    (h : ∀ x y : Nat, x < 128 → y < 64 → t.pixel x y = u.pixel x y) : t.canvas = u.canvas := by
  refine Memory.canvas_ext ht hu fun i hi => ?_
  have helement : i / 128 * Config.W + i % 128 = i := Nat.div_add_mod' i 128
  have hpixel := h (i % 128) (i / 128) (Nat.mod_lt _ (by decide)) (Nat.div_lt_of_lt_mul hi)
  rwa [State.pixel, State.pixel, helement] at hpixel

end

/-! ### BEGIN and EXTEND (41 R128, R129) -/

/-- The state BEGIN answers. -/
def State.afterBegin (s : State) (px py : Int) : State :=
  (((s.plot (s.mapPoint px py)).setActive true).setLast (s.mapPoint px py)).complete

/-- The state EXTEND answers when a stroke is active. -/
def State.afterExtend (s : State) (px py : Int) : State :=
  ((s.drawLine s.lastPoint (s.mapPoint px py)).setLast (s.mapPoint px py)).complete

section
variable (s : State) (px py : Int)

theorem exec_beginStroke : exec (.beginStroke px py) s = .next (s.afterBegin px py) := rfl

theorem exec_extendStroke_of_active (h : s.strokeActive = true) :
    exec (.extendStroke px py) s = .next (s.afterExtend px py) := if_pos h

theorem exec_extendStroke_of_inactive (h : s.strokeActive = false) :
    exec (.extendStroke px py) s = .next { s with resultCode := 0#4 } := if_neg (Bool.not_eq_true _ ▸ h)

theorem State.afterBegin_frame :
    s.afterBegin px py =
      { s with
        canvas := (s.afterBegin px py).canvas, strokeActive := true, lastX := (s.afterBegin px py).lastX,
        lastY := (s.afterBegin px py).lastY, resultCode := 0#4 } := by
  rw [State.afterBegin, s.plot_frame (s.mapPoint px py)]
  rfl

theorem State.afterExtend_frame :
    s.afterExtend px py =
      { s with
        canvas := (s.afterExtend px py).canvas, lastX := (s.afterExtend px py).lastX,
        lastY := (s.afterExtend px py).lastY, resultCode := 0#4 } := by
  rw [State.afterExtend, s.drawLine_frame s.lastPoint (s.mapPoint px py)]
  rfl

theorem State.painted_afterBegin : Painted s [s.mapPoint px py] (s.afterBegin px py) :=
  (s.painted_plot _).congr rfl

theorem State.painted_afterExtend : Painted s (linePoints s.lastPoint (s.mapPoint px py)) (s.afterExtend px py) :=
  (s.painted_drawLine _ _).congr rfl

theorem State.afterBegin_last :
    ((s.afterBegin px py).lastX.toNat : Int) = s.mapX px ∧ ((s.afterBegin px py).lastY.toNat : Int) = s.mapY py :=
  State.setLast_mapPoint s ((s.plot (s.mapPoint px py)).setActive true) px py

theorem State.afterExtend_last :
    ((s.afterExtend px py).lastX.toNat : Int) = s.mapX px ∧ ((s.afterExtend px py).lastY.toNat : Int) = s.mapY py :=
  State.setLast_mapPoint s (s.drawLine s.lastPoint (s.mapPoint px py)) px py

theorem State.afterBegin_lastPoint : (s.afterBegin px py).lastPoint = s.mapPoint px py :=
  State.lastPoint_setLast_mapPoint s ((s.plot (s.mapPoint px py)).setActive true) px py

theorem State.afterExtend_lastPoint : (s.afterExtend px py).lastPoint = s.mapPoint px py :=
  State.lastPoint_setLast_mapPoint s (s.drawLine s.lastPoint (s.mapPoint px py)) px py

/-- BEGIN leaves VIEW alone, so later points map as before. -/
theorem State.afterBegin_mapPoint (qx qy : Int) : (s.afterBegin px py).mapPoint qx qy = s.mapPoint qx qy := by
  rw [s.afterBegin_frame]
  rfl

end

/-! ### A stroke of two points (41 R136) -/

/-- The state after BEGIN at `p` and EXTEND to `q`. -/
def State.afterSegment (s : State) (px py qx qy : Int) : State := (s.afterBegin px py).afterExtend qx qy

section
variable (s : State) (px py qx qy : Int)

theorem exec_extendStroke_afterBegin :
    exec (.extendStroke qx qy) (s.afterBegin px py) = .next (s.afterSegment px py qx qy) :=
  exec_extendStroke_of_active _ qx qy rfl

/-- The square BEGIN plots is also the square of an endpoint of the line. -/
theorem State.painted_afterSegment :
    Painted s (linePoints (s.mapPoint px py) (s.mapPoint qx qy)) (s.afterSegment px py qx qy) := by
  have hextend := (s.afterBegin px py).painted_afterExtend qx qy
  rw [State.afterBegin_lastPoint, State.afterBegin_mapPoint] at hextend
  have hplot := s.plot_frame (s.mapPoint px py)
  refine ((s.painted_afterBegin px py).trans hextend hplot.brushSize hplot.brushMode).of_mem_iff fun p => ?_
  rw [List.singleton_append, List.mem_cons, or_iff_right_of_imp]
  rintro rfl
  exact left_mem_linePoints _ _

theorem State.afterSegment_lastPoint : (s.afterSegment px py qx qy).lastPoint = s.mapPoint qx qy :=
  ((s.afterBegin px py).afterExtend_lastPoint qx qy).trans (s.afterBegin_mapPoint px py qx qy)

theorem State.afterSegment_frame :
    s.afterSegment px py qx qy =
      { s with
        canvas := (s.afterSegment px py qx qy).canvas, strokeActive := true,
        lastX := (s.afterSegment px py qx qy).lastX, lastY := (s.afterSegment px py qx qy).lastY,
        resultCode := 0#4 } := by
  have hbegin := s.afterBegin_frame px py
  have hextend := (s.afterBegin px py).afterExtend_frame qx qy
  rw [← State.afterSegment] at hextend
  generalize s.afterSegment px py qx qy = u at hextend ⊢
  generalize s.afterBegin px py = t at hbegin hextend
  rw [hextend, hbegin]

theorem State.wf_canvas_afterSegment (h : Memory.wf .canvas s.canvas = true) :
    Memory.wf .canvas (s.afterSegment px py qx qy).canvas = true :=
  State.wf_canvas_drawLine (s := s.afterBegin px py) _ _ (State.wf_canvas_plot (s.mapPoint px py) h)

theorem State.afterSegment_pixel_comm {x y : Nat} (hx : x < 128) (hy : y < 64) :
    (s.afterSegment px py qx qy).pixel x y = (s.afterSegment qx qy px py).pixel x y :=
  (s.painted_afterSegment px py qx qy).pixel_eq (linePoints_comm _ _ ▸ s.painted_afterSegment qx qy px py) hx hy

end

/-! ### CLEAR (41 R131) -/

theorem State.clear_pixel (s : State) {x y : Nat} (hx : x < 128) (hy : y < 64) :
    (s.writeBytes .canvas 0 (List.replicate Config.NPIX Config.LUM_OFF)).pixel x y = 0#8 := by
  have hin : y * Config.W + x < Config.NPIX := by
    simp only [Config.W, Config.NPIX]
    omega
  rw [State.pixel, State.readByte_writeBytes, List.length_replicate,
    if_pos ⟨rfl, Nat.zero_le _, (Nat.zero_add _).symm ▸ hin, hin⟩, Nat.sub_zero, List.getD_replicate _ hin]

end Sys2Proof.Machine
end

section
/-! The statements on the Rasterizer (spec 41). -/

namespace Sys2Proof.Proofs

open Sys2Proof Sys2Proof.Machine

/-- Settles O18: `clamp` is a maximum of a minimum, and `/` on the integers rounds down (`mapCoord_eq_floor`). -/
theorem mappedPointIsTheClampedFloor : Obligations.MappedPointIsTheClampedFloor := by
  refine ⟨fun s px py _ _ => ⟨?_, ?_⟩, fun s px py hw hh hx hx' hy hy' => ⟨?_, ?_⟩⟩
  · exact mapCoord_eq_floor px s.viewW.toNat (n := Config.W) (by decide)
  · exact mapCoord_eq_floor py s.viewH.toNat (n := Config.H) (by decide)
  · rw [State.mapX, hw]
    exact mapCoord_self hx (Int.lt_add_one_of_le hx')
  · rw [State.mapY, hh]
    exact mapCoord_self hy (Int.lt_add_one_of_le hy')

/-- Settles O21: BEGIN paints the one square of the mapped point (`painted_afterBegin`). -/
theorem beginPlotsOneSquareAndStartsAStroke : Obligations.BeginPlotsOneSquareAndStartsAStroke := by
  refine ⟨fun w hop => decode_beginStroke hop, fun s px py => ⟨s.afterBegin px py, rfl, fun x y hx hy => ?_, rfl, ?_⟩⟩
  · obtain ⟨hin, hout⟩ := s.painted_afterBegin px py x y hx hy
    rw [← s.plotValue_eq]
    exact ⟨fun h => hin ⟨_, List.mem_singleton_self _, h⟩,
      fun h => hout fun p hp => List.mem_singleton.mp hp ▸ h⟩
  · obtain ⟨hlastX, hlastY⟩ := s.afterBegin_last px py
    exact ⟨hlastX, hlastY, s.afterBegin_frame px py⟩

/-- Settles O22: EXTEND paints the squares of the line, if a stroke is active (`painted_afterExtend`). -/
theorem extendDrawsTheLineFromTheLastPoint : Obligations.ExtendDrawsTheLineFromTheLastPoint := by
  refine ⟨fun w hop => decode_extendStroke hop, fun s px py => exec_extendStroke_of_inactive s px py,
    fun s px py hactive =>
      ⟨s.afterExtend px py, exec_extendStroke_of_active s px py hactive, fun x y hx hy => ?_, ?_⟩⟩
  · rw [← s.plotValue_eq]
    exact s.painted_afterExtend px py x y hx hy
  · obtain ⟨hlastX, hlastY⟩ := s.afterExtend_last px py
    exact ⟨hlastX, hlastY, s.afterExtend_frame px py⟩

/-- Settles O24: CLEAR writes 0 over all of CANVAS (`clear_pixel`), and its format has one word. -/
theorem clearTurnsEveryPixelOff : Obligations.ClearTurnsEveryPixelOff := by
  refine ⟨fun s => ⟨_, rfl, fun x y hx hy => s.clear_pixel hx hy, rfl⟩, decode_eq_ok_iff (i := .clear) rfl,
    fun w hop hne => ?_⟩
  rw [decode_clear hop]
  exact decodeN_of_ne_encodeN hop hne .clear

/-- Settles O28: the closed form of the stepping loop (`bresenham_course`), listed in canonical order. -/
theorem lineIsSymmetricConnectedAndExact : Obligations.LineIsSymmetricConnectedAndExact := by
  intro a b
  have hlist := linePoints_lineList a b
  have hband := linePoints_lineBand a b
  refine ⟨linePoints_comm a b, hlist.head, hlist.last, hband.length, hlist.nodup, hlist.adjacent, hband.inBox, ?_⟩
  have hlength := hband.length
  omega

/-- Settles O29: on the minor axis the loop keeps the rounded quotient (`minorOffset_near`), in either direction. -/
theorem linePointsStayWithinHalfAPixel : Obligations.LinePointsStayWithinHalfAPixel :=
  fun a b p hp => (linePoints_lineBand a b).near p hp

/-- Settles O30: both orders paint the squares of one and the same line (`afterSegment_pixel_comm`), and canonical
canvases with the same pixels are the same data. -/
theorem strokeSegmentIsDirectionIndependent : Obligations.StrokeSegmentIsDirectionIndependent := by
  intro s px py qx qy
  have hpixel := fun x y (hx : x < 128) (hy : y < 64) => s.afterSegment_pixel_comm px py qx qy hx hy
  have hframe : s.afterSegment px py qx qy =
      { s.afterSegment qx qy px py with
        canvas := (s.afterSegment px py qx qy).canvas, lastX := (s.afterSegment px py qx qy).lastX,
        lastY := (s.afterSegment px py qx qy).lastY } := by
    rw [s.afterSegment_frame qx qy px py]
    exact s.afterSegment_frame px py qx qy
  refine ⟨_, _, _, _, exec_beginStroke s px py, exec_extendStroke_afterBegin s px py qx qy, exec_beginStroke s qx qy,
    exec_extendStroke_afterBegin s qx qy px py, hpixel, fun hcanonical => ?_, hframe,
    s.afterSegment_lastPoint px py qx qy, s.afterSegment_lastPoint qx qy px py⟩
  have hcanvas := canvas_eq_of_pixel_eq (s.wf_canvas_afterSegment px py qx qy hcanonical.canvas)
    (s.wf_canvas_afterSegment qx qy px py hcanonical.canvas) hpixel
  rwa [hcanvas] at hframe

/-- Settles O19: the clamp bounds the mapped point, and no command but DECODE raises a code. -/
theorem everyMappedPointIsOnTheCanvas : Obligations.EveryMappedPointIsOnTheCanvas := by
  intro s px py
  obtain ⟨hx, hx'⟩ := mapCoord_bounds px s.viewW.toNat (n := Config.W) (by decide)
  obtain ⟨hy, hy'⟩ := mapCoord_bounds py s.viewH.toNat (n := Config.H) (by decide)
  obtain ⟨t, ht, hbegin⟩ := exec_effect (.beginStroke px py) s
  obtain ⟨u, hu, hextend⟩ := exec_effect (.extendStroke px py) s
  exact ⟨hx, Int.le_of_lt_add_one hx', hy, Int.le_of_lt_add_one hy', ⟨t, ht, hbegin.resultCode_eq_ok nofun⟩,
    ⟨u, hu, hextend.resultCode_eq_ok nofun⟩⟩

/-- Settles O20: both edges only cut the interval of `size` positions around the centre. -/
theorem spanStaysOnTheAxisAndContainsItsCentre : Obligations.SpanStaysOnTheAxisAndContainsItsCentre := by
  intro c size n hlo hhi hsize
  refine ⟨span_lo_nonneg c size n, ?_, ?_, span_hi_lt c size n, ?_, fun hleft hright => ?_⟩ <;>
    simp only [span, Interval.count] <;>
    omega

/-- Settles O23: END writes ACTIVE and RESULT alone, and its format has one word. -/
theorem endClearsActiveAndKeepsTheLastPoint : Obligations.EndClearsActiveAndKeepsTheLastPoint := by
  refine ⟨fun s => rfl, decode_eq_ok_iff (i := .endStroke) rfl, fun w hop hne => ?_⟩
  rw [decode_endStroke hop]
  exact decodeN_of_ne_encodeN hop hne .endStroke

/-- Settles O25: the stored size is the clamped operand (`clampSize_eq`), and `decodeS` tests the reserved field. -/
theorem setSizeStoresTheClampedSize : Obligations.SetSizeStoresTheClampedSize := by
  refine ⟨fun s sz => ?_, fun w hop hzero => ?_, fun w hop hne => ?_⟩
  · rw [← clampSize_eq]
    rfl
  · rw [decode_setSize hop]
    exact if_pos hzero
  · rw [decode_setSize hop]
    exact if_neg hne

/-- Settles O26: SETMODE stores its operand, bit 0 of the word (`modeField_eq`), and `decodeM` tests the reserved
field. -/
theorem setModeStoresTheMode : Obligations.SetModeStoresTheMode := by
  refine ⟨fun s md => rfl, fun w hop hzero => ?_, fun w hop hne => ?_⟩
  · rw [decode_setMode hop, ← modeField_eq]
    exact if_pos hzero
  · rw [decode_setMode hop]
    exact if_neg hne

/-- Settles O27: within 14 bits the stored field is the operand corrected from 0 to 1 (`viewField_eq`). -/
theorem setViewStoresTheCorrectedFields : Obligations.SetViewStoresTheCorrectedFields := by
  refine ⟨fun s vw vh hw hh => ?_, fun w hop => decode_setView hop⟩
  rw [← viewField_eq hw, ← viewField_eq hh]
  rfl

end Sys2Proof.Proofs
end

section
/-! Facts about the Bit-Packer that the statements on spec 42 use: the pixel-to-bit mapping, the states PACK and
UNPACK answer bit by bit and pixel by pixel, and how thresholding reads on and off pixels. -/

namespace Sys2Proof.Machine

/-! ### The pixel-to-bit mapping (42 R160, R161) -/

theorem packed_of_pixel {x y : Nat} (hx : x < 128) (hy : y < 64) :
    packByteIndex x y < 1024 ∧ packBitIndex x < 8 ∧
      packColumn (packByteIndex x y) (packBitIndex x) = x ∧ packRow (packByteIndex x y) = y := by
  simp only [packByteIndex, packBitIndex, packColumn, packRow, Config.ROW_BYTES]
  omega

theorem pixel_of_packed {i b : Nat} (hi : i < 1024) (hb : b < 8) :
    packColumn i b < 128 ∧ packRow i < 64 ∧
      packByteIndex (packColumn i b) (packRow i) = i ∧ packBitIndex (packColumn i b) = b := by
  simp only [packByteIndex, packBitIndex, packColumn, packRow, Config.ROW_BYTES]
  omega

/-- The pixel of a packed bit is the pixel of its canvas element (10 R24). -/
theorem packColumn_packRow_eq_element {i b : Nat} (hb : b < 8) :
    packColumn i b = (8 * i + b) % 128 ∧ packRow i = (8 * i + b) / 128 := by
  obtain ⟨helement, hcolumn⟩ := packed_element (i := i) hb
  omega

/-! ### Thresholding on and off pixels (42 R162, R164) -/

/-- `LUM_ON > THRESH >= LUM_OFF`: what UNPACK writes for a bit packs as that bit. -/
theorem overThreshold_lum (bit : Bool) : overThreshold (if bit then Config.LUM_ON else Config.LUM_OFF) = bit := by
  cases bit <;> rfl

/-- An on or off pixel packs as 1 iff it is on. -/
theorem overThreshold_of_on_or_off {lum : Byte} (h : lum = Config.LUM_ON ∨ lum = Config.LUM_OFF) :
    overThreshold lum = (lum == Config.LUM_ON) := by
  obtain rfl | rfl := h <;> rfl

/-- UNPACK writes back the luminance of an on or off pixel from its packed bit. -/
theorem lum_overThreshold {lum : Byte} (h : lum = Config.LUM_ON ∨ lum = Config.LUM_OFF) :
    (if overThreshold lum then Config.LUM_ON else Config.LUM_OFF) = lum := by
  obtain rfl | rfl := h <;> rfl

/-! ### PACK and UNPACK (42 R162, R163) -/

/-- A memory written whole, element `i` with `f i`, reads as `f`. -/
theorem State.readByte_writeBytes_whole (s : State) (k : Bank) (f : Nat → Byte) {i : Nat} (h : i < k.size) :
    (s.writeBytes k 0 ((List.range k.size).map f)).readByte k i = f i := by
  have hlength : i < ((List.range k.size).map f).length := by rwa [List.length_map, List.length_range]
  rw [State.readByte_writeBytes, if_pos ⟨rfl, Nat.zero_le i, (Nat.zero_add _).symm ▸ hlength, h⟩, Nat.sub_zero,
    List.getD_eq_getElem _ _ hlength, List.getElem_map, List.getElem_range]

/-- The state PACK answers. -/
def State.afterPack (s : State) : State := (s.writeBytes .packBuf 0 s.packedBytes).complete

/-- The state UNPACK answers. -/
def State.afterUnpack (s : State) : State := (s.writeBytes .canvas 0 s.unpackedPixels).complete

section
variable (s : State)

theorem exec_pack : exec .pack s = .next s.afterPack := rfl

theorem exec_unpack : exec .unpack s = .next s.afterUnpack := rfl

theorem State.afterPack_frame : s.afterPack = { s with packBuf := s.afterPack.packBuf, resultCode := 0#4 } := rfl

theorem State.afterUnpack_frame : s.afterUnpack = { s with canvas := s.afterUnpack.canvas, resultCode := 0#4 } := rfl

theorem State.afterPack_readByte {i : Nat} (hi : i < 1024) : s.afterPack.readByte .packBuf i = s.packedByte i :=
  s.readByte_writeBytes_whole .packBuf s.packedByte hi

/-- Bit `b` of byte `i` of PACK_BUF after PACK. -/
theorem State.afterPack_getLsbD {i b : Nat} (hi : i < 1024) (hb : b < 8) :
    (s.afterPack.readByte .packBuf i).getLsbD b = overThreshold (s.pixel (packColumn i b) (packRow i)) := by
  rw [s.afterPack_readByte hi, s.packedByte_getLsbD i hb]

theorem State.unpackedPixel_eq {i b : Nat} (hb : b < 8) :
    s.unpackedPixel (8 * i + b) =
      if (s.readByte .packBuf i).getLsbD b then Config.LUM_ON else Config.LUM_OFF := by
  obtain ⟨hbyte, hbit⟩ := element_packed (8 * i + b)
  rw [State.unpackedPixel, hbyte, hbit, show (8 * i + b) / 8 = i by omega, show (8 * i + b) % 8 = b by omega]

/-- The pixel of bit `b` of byte `i` after UNPACK. -/
theorem State.afterUnpack_pixel {i b : Nat} (hi : i < 1024) (hb : b < 8) :
    s.afterUnpack.pixel (packColumn i b) (packRow i) =
      if (s.readByte .packBuf i).getLsbD b then Config.LUM_ON else Config.LUM_OFF := by
  have hsize : 8 * i + b < Bank.canvas.size := show 8 * i + b < 8192 by omega
  rw [State.pixel, (packed_element hb).1, ← s.unpackedPixel_eq hb]
  exact s.readByte_writeBytes_whole .canvas s.unpackedPixel hsize

theorem State.wf_canvas_afterUnpack (h : Memory.wf .canvas s.canvas = true) :
    Memory.wf .canvas s.afterUnpack.canvas = true :=
  State.wf_writeBytes (j := .canvas) .canvas 0 s.unpackedPixels h

/-! ### The laws of PACK and UNPACK (42 R164) -/

/-- A packed byte depends on its eight pixels alone (R164 item 1). -/
theorem State.packedByte_congr {s t : State} {i : Nat} (hi : i < 1024)
    (h : ∀ x y : Nat, x < 128 → y < 64 → s.pixel x y = t.pixel x y) : s.packedByte i = t.packedByte i := by
  refine BitVec.eq_of_getLsbD_eq fun b hb => ?_
  obtain ⟨hcolumn, hrow, -, -⟩ := pixel_of_packed hi hb
  rw [s.packedByte_getLsbD i hb, t.packedByte_getLsbD i hb, h _ _ hcolumn hrow]

theorem State.afterUnpack_afterPack_readByte {i : Nat} (hi : i < 1024) :
    s.afterUnpack.afterPack.readByte .packBuf i = s.readByte .packBuf i := by
  refine BitVec.eq_of_getLsbD_eq fun b hb => ?_
  rw [s.afterUnpack.afterPack_getLsbD hi hb, s.afterUnpack_pixel hi hb, overThreshold_lum]

theorem State.afterPack_afterUnpack_pixel (h : s.TwoValued) {x y : Nat} (hx : x < 128) (hy : y < 64) :
    s.afterPack.afterUnpack.pixel x y = s.pixel x y := by
  obtain ⟨hi, hb, hcolumn, hrow⟩ := packed_of_pixel hx hy
  have hunpack := s.afterPack.afterUnpack_pixel hi hb
  rwa [s.afterPack_getLsbD hi hb, hcolumn, hrow, lum_overThreshold (h x y hx hy)] at hunpack

/-! ### Counting bits and pixels (42 R164 item 4) -/

/-- A two-valued canvas packs, in bit `b` of byte `i`, whether canvas element `8*i + b` is on. -/
theorem State.afterPack_getLsbD_eq_isOn (h : s.TwoValued) {i b : Nat} (hi : i < 1024) (hb : b < 8) :
    (s.afterPack.readByte .packBuf i).getLsbD b = s.isOn ((8 * i + b) % 128) ((8 * i + b) / 128) := by
  obtain ⟨hcolumn, hrow, -, -⟩ := pixel_of_packed hi hb
  obtain ⟨hx, hy⟩ := packColumn_packRow_eq_element (i := i) hb
  rw [s.afterPack_getLsbD hi hb, overThreshold_of_on_or_off (h _ _ hcolumn hrow), hx, hy]
  rfl

theorem State.onesOf_afterPack (h : s.TwoValued) {i : Nat} (hi : i < 1024) :
    onesOf (s.afterPack.readByte .packBuf i) =
      ((List.range 8).filter fun b => s.isOn ((8 * i + b) % 128) ((8 * i + b) / 128)).length :=
  congrArg List.length (List.filter_congr fun _ hb => s.afterPack_getLsbD_eq_isOn h hi (List.mem_range.mp hb))

end

/-- Counting in `n` blocks of `m` counts over the whole range. -/
theorem sum_count_blocks (p : Nat → Bool) (m n : Nat) :
    ((List.range n).map fun i => ((List.range m).filter fun j => p (m * i + j)).length).sum =
      ((List.range (m * n)).filter p).length := by
  induction n with
  | zero => rfl
  | succ n ih =>
    rw [List.range_succ, List.map_append, List.sum_append, ih, Nat.mul_succ, List.range_add, List.filter_append,
      List.length_append, List.filter_map, List.length_map, List.map_singleton, List.sum_singleton]
    rfl

end Sys2Proof.Machine
end

section
/-! The statements on the Bit-Packer (spec 42). -/

namespace Sys2Proof.Proofs

open Sys2Proof Sys2Proof.Machine

/-- Settles O32: PACK writes `packedByte i` at every index (`afterPack_getLsbD`), and its format has one word. -/
theorem packThresholdsEveryPixel : Obligations.PackThresholdsEveryPixel := by
  refine ⟨fun s => ⟨_, exec_pack s, fun i b hi hb => s.afterPack_getLsbD hi hb, s.afterPack_frame⟩,
    decode_eq_ok_iff (i := .pack) rfl, fun w hop hne => ?_⟩
  rw [decode_pack hop]
  exact decodeN_of_ne_encodeN hop hne .pack

/-- Settles O33: UNPACK writes `unpackedPixel e` at every element (`afterUnpack_pixel`), and its format has one word. -/
theorem unpackLoadsEveryPixel : Obligations.UnpackLoadsEveryPixel := by
  refine ⟨fun s => ⟨_, exec_unpack s, fun i b hi hb => s.afterUnpack_pixel hi hb, s.afterUnpack_frame⟩,
    decode_eq_ok_iff (i := .unpack) rfl, fun w hop hne => ?_⟩
  rw [decode_unpack hop]
  exact decodeN_of_ne_encodeN hop hne .unpack

/-- Settles O34: bit by bit, the luminance UNPACK writes for a bit packs as that bit (`overThreshold_lum`). -/
theorem packAfterUnpackRestoresPackBuf : Obligations.PackAfterUnpackRestoresPackBuf :=
  fun s => ⟨_, _, exec_unpack s, exec_pack s.afterUnpack, fun _ hi => s.afterUnpack_afterPack_readByte hi⟩

/-- Settles O35: pixel by pixel, an on or off luminance comes back from its packed bit (`lum_overThreshold`), and
canonical canvases with the same pixels are the same data. -/
theorem unpackAfterPackRestoresTheCanvas : Obligations.UnpackAfterPackRestoresTheCanvas := by
  intro s htwo
  have hpixel := fun x y (hx : x < 128) (hy : y < 64) => s.afterPack_afterUnpack_pixel htwo hx hy
  exact ⟨_, _, exec_pack s, exec_unpack s.afterPack, hpixel, fun hcanonical =>
    canvas_eq_of_pixel_eq (s.afterPack.wf_canvas_afterUnpack hcanonical.canvas) hcanonical.canvas hpixel⟩

/-- Settles O36: packed bytes depend on pixels alone, and the bits of byte `i` count the on pixels of its block of
eight canvas elements. -/
theorem packCountsTheOnPixels : Obligations.PackCountsTheOnPixels := by
  refine ⟨fun s s' hpixel => ⟨_, _, exec_pack s, exec_pack s', fun i hi => ?_⟩,
    fun s htwo => ⟨_, exec_pack s, ?_⟩⟩
  · rw [s.afterPack_readByte hi, s'.afterPack_readByte hi, State.packedByte_congr hi hpixel]
  · rw [List.map_congr_left fun i hi => s.onesOf_afterPack htwo (List.mem_range.mp hi)]
    exact sum_count_blocks (fun e => s.isOn (e % 128) (e / 128)) 8 1024

/-- Settles O31: both directions are division with remainder by the 8 bits of a byte and the 16 bytes of a row. -/
theorem pixelAndPackedBitMapToEachOther : Obligations.PixelAndPackedBitMapToEachOther :=
  ⟨fun _ _ hx hy => packed_of_pixel hx hy, fun _ _ hi hb => pixel_of_packed hi hb⟩

end Sys2Proof.Proofs
end

section
/-! Facts about the Run-Length Codec that the statements on spec 43 use: a frame as a list of pairs, what the scan
emits for a run, and the canonical frame of a byte sequence. -/

namespace Sys2Proof.Machine

/-! ### A frame as a list of pairs (43 R180, R184) -/

theorem pairBytes_cons (p : Byte × Byte) (ps : List (Byte × Byte)) :
    pairBytes (p :: ps) = p.1 :: p.2 :: pairBytes ps := rfl

theorem pairBytes_length (ps : List (Byte × Byte)) : (pairBytes ps).length = 2 * ps.length := by
  induction ps with
  | nil => rfl
  | cons p ps ih => simp only [pairBytes_cons, List.length_cons, ih, Nat.mul_succ]

theorem pairBytes_injective : Function.Injective pairBytes := by
  intro ps qs h
  induction ps generalizing qs with
  | nil =>
    cases qs with
    | nil => rfl
    | cons q qs => cases h
  | cons p ps ih =>
    cases qs with
    | nil => cases h
    | cons q qs =>
      obtain ⟨hrun, hrest⟩ := List.cons.inj h
      obtain ⟨hvalue, hrest⟩ := List.cons.inj hrest
      rw [Prod.ext hrun hvalue, ih hrest]

theorem pair_of_pairBytes (ps : List (Byte × Byte)) {k : Nat} (h : k < ps.length) :
    pairRun (pairBytes ps) k = ps[k].1.toNat ∧ pairValue (pairBytes ps) k = ps[k].2 := by
  induction ps generalizing k with
  | nil => exact absurd h (Nat.not_lt_zero k)
  | cons p ps ih =>
    cases k with
    | zero => exact ⟨rfl, rfl⟩
    | succ k => exact ih (Nat.lt_of_succ_lt_succ h)

theorem map_pairRun_pairBytes (ps : List (Byte × Byte)) :
    (List.range ps.length).map (pairRun (pairBytes ps)) = ps.map fun p => p.1.toNat :=
  List.ext_getElem (by simp) fun k _ h => by
    simpa using (pair_of_pairBytes ps (by simpa using h)).1

theorem rlExpand_pairBytes (ps : List (Byte × Byte)) :
    rlExpand (pairBytes ps) = ps.flatMap fun p => List.replicate p.1.toNat p.2 := by
  induction ps with
  | nil => rfl
  | cons p ps ih => rw [pairBytes_cons, rlExpand_pair, ih, List.flatMap_cons]

theorem rlExpand_pairBytes_append (ps qs : List (Byte × Byte)) :
    rlExpand (pairBytes (ps ++ qs)) = rlExpand (pairBytes ps) ++ rlExpand (pairBytes qs) := by
  simp only [rlExpand_pairBytes, List.flatMap_append]

theorem rlExpand_pairBytes_length (ps : List (Byte × Byte)) :
    (rlExpand (pairBytes ps)).length = (ps.map fun p => p.1.toNat).sum := by
  simp [rlExpand_pairBytes, List.length_flatMap]

theorem run_bounds {r : Byte} (h : r ≠ 0#8) : 1 ≤ r.toNat ∧ r.toNat ≤ 255 := by
  bv_omega

/-- Runs of 1 to 255 bound the number of pairs by the number of bytes they expand to (R183 items 1 and 2). -/
theorem length_bounds_of_runs {ps : List (Byte × Byte)} (h : ∀ p ∈ ps, p.1 ≠ 0#8) :
    ps.length ≤ (rlExpand (pairBytes ps)).length ∧ (rlExpand (pairBytes ps)).length ≤ 255 * ps.length := by
  induction ps with
  | nil => exact ⟨Nat.le_refl _, Nat.le_refl _⟩
  | cons p ps ih =>
    obtain ⟨hp, hps⟩ := List.forall_mem_cons.mp h
    have hrun := run_bounds hp
    have ih := ih hps
    rw [pairBytes_cons, rlExpand_pair, List.length_append, List.length_replicate, List.length_cons]
    omega

/-! ### What the scan emits for a run (43 R181) -/

theorem rlEncode_cons (b : Byte) (bs : List Byte) : rlEncode (b :: bs) = rleScan b 1 bs := rfl

/-- Inside a run the scan counts on. -/
theorem rleScan_replicate_append (v : Byte) (rest : List Byte) (k r : Nat) (h : r + k ≤ 255) :
    rleScan v r (List.replicate k v ++ rest) = rleScan v (r + k) rest := by
  induction k generalizing r with
  | zero => rfl
  | succ k ih =>
    have hmore : r < Config.RUN_MAX := show r < 255 by omega
    rw [List.replicate_succ, List.cons_append, rleScan_cons, if_pos ⟨rfl, hmore⟩, ih (r + 1) (by omega),
      Nat.add_right_comm, Nat.add_assoc]

/-- At a full run, another value or the end of the bytes, the scan emits its pair and starts afresh. -/
theorem rleScan_of_run_ends {v : Byte} {r : Nat} {rest : List Byte} (h : r = 255 ∨ ∀ b ∈ rest.head?, v ≠ b) :
    rleScan v r rest = rlePair r v ++ rlEncode rest := by
  cases rest with
  | nil => rfl
  | cons b t =>
    refine (rleScan_cons v b r t).trans (if_neg fun ⟨hb, hr⟩ => ?_)
    obtain rfl | hne := h
    · exact Nat.lt_irrefl 255 hr
    · exact hne b rfl hb.symm

/-- A run that is full or cannot be lengthened becomes one pair. -/
theorem rlEncode_run {n : Nat} {v : Byte} {rest : List Byte} (hpos : 0 < n) (hmax : n ≤ 255)
    (h : n = 255 ∨ ∀ b ∈ rest.head?, v ≠ b) :
    rlEncode (List.replicate n v ++ rest) = BitVec.ofNat 8 n :: v :: rlEncode rest := by
  obtain ⟨k, rfl⟩ := Nat.exists_eq_add_of_le' hpos
  rw [List.replicate_succ, List.cons_append, rlEncode_cons, rleScan_replicate_append v rest k 1 (by omega),
    Nat.add_comm 1 k, rleScan_of_run_ends h]
  rfl

theorem rlEncode_replicate (q : Nat) {m : Nat} (hm : m < 255) (v : Byte) :
    rlEncode (List.replicate (255 * q + m) v) =
      (List.replicate q [255#8, v]).flatten ++ (if m = 0 then [] else [BitVec.ofNat 8 m, v]) := by
  induction q with
  | zero =>
    by_cases h : m = 0
    · subst h
      rfl
    · have hrun := rlEncode_run (v := v) (rest := []) (Nat.pos_of_ne_zero h) (Nat.le_of_lt hm) (.inr nofun)
      rw [List.append_nil] at hrun
      rw [Nat.mul_zero, Nat.zero_add, hrun, if_neg h]
      rfl
  | succ q ih =>
    have hsplit : 255 * (q + 1) + m = 255 + (255 * q + m) := by omega
    rw [hsplit, List.replicate_add, rlEncode_run (by decide) (Nat.le_refl _) (.inl rfl), ih]
    rfl

theorem head?_rlExpand_pairBytes_cons {p : Byte × Byte} (hp : p.1 ≠ 0#8) (ps : List (Byte × Byte)) :
    (rlExpand (pairBytes (p :: ps))).head? = some p.2 := by
  obtain ⟨k, hk⟩ := Nat.exists_eq_add_of_le' (run_bounds hp).1
  rw [pairBytes_cons, rlExpand_pair, hk]
  rfl

/-- Each pair of a canonical frame is a run that is full or cannot be lengthened (R183 item 4). -/
theorem rlEncode_rlExpand_of_canonicalPairs {ps : List (Byte × Byte)} (h : canonicalPairs ps) :
    rlEncode (rlExpand (pairBytes ps)) = pairBytes ps := by
  induction ps with
  | nil => rfl
  | cons p ps ih =>
    obtain ⟨hruns, hchain⟩ := h
    obtain ⟨hp, hps⟩ := List.forall_mem_cons.mp hruns
    obtain ⟨hlink, hchain⟩ := List.isChain_cons.mp hchain
    have hends : p.1.toNat = 255 ∨ ∀ b ∈ (rlExpand (pairBytes ps)).head?, p.2 ≠ b := by
      cases ps with
      | nil => exact .inr nofun
      | cons q qs =>
        rw [head?_rlExpand_pairBytes_cons (hps q List.mem_cons_self)]
        exact (hlink q rfl).imp (congrArg BitVec.toNat) fun hne b hb => Option.some.inj hb ▸ hne
    obtain ⟨hpos, hmax⟩ := run_bounds hp
    rw [pairBytes_cons, rlExpand_pair, rlEncode_run hpos hmax hends, ih ⟨hps, hchain⟩, BitVec.ofNat_toNat,
      BitVec.setWidth_eq]

/-! ### The canonical frame of a byte sequence (43 R183, R184) -/

theorem run_of_count {r : Nat} (hpos : 0 < r) (hmax : r ≤ 255) :
    (BitVec.ofNat 8 r).toNat = r ∧ BitVec.ofNat 8 r ≠ 0#8 := by
  bv_omega

/-- The scan emits a canonical frame of the run already read and the bytes still to come. -/
theorem rleScan_frame (v : Byte) (r : Nat) (bs : List Byte) (hpos : 0 < r) (hmax : r ≤ 255) :
    ∃ n ps, canonicalPairs ((n, v) :: ps) ∧ rleScan v r bs = pairBytes ((n, v) :: ps) ∧
      rlExpand (pairBytes ((n, v) :: ps)) = List.replicate r v ++ bs := by
  induction bs generalizing v r with
  | nil =>
    obtain ⟨hrun, hne⟩ := run_of_count hpos hmax
    refine ⟨BitVec.ofNat 8 r, [], ⟨List.forall_mem_singleton.mpr hne, .singleton _⟩, rfl, ?_⟩
    rw [pairBytes_cons, rlExpand_pair, hrun]
    rfl
  | cons b t ih =>
    rw [rleScan_cons]
    split
    next hgrow =>
      obtain ⟨rfl, hlt⟩ := hgrow
      obtain ⟨n, ps, hcanonical, hbytes, hexpand⟩ := ih b (r + 1) (Nat.succ_pos r) hlt
      exact ⟨n, ps, hcanonical, hbytes, by rw [hexpand, List.replicate_succ', List.append_assoc]; rfl⟩
    next hends =>
      obtain ⟨hrun, hne⟩ := run_of_count hpos hmax
      obtain ⟨n, ps, ⟨hruns, hchain⟩, hbytes, hexpand⟩ := ih b 1 (by decide) (by decide)
      have hlink : BitVec.ofNat 8 r = 255#8 ∨ v ≠ b := by
        by_cases hv : b = v
        · exact .inl (congrArg (BitVec.ofNat 8) (Nat.le_antisymm hmax (Nat.le_of_not_lt fun hr => hends ⟨hv, hr⟩)))
        · exact .inr (Ne.symm hv)
      refine ⟨BitVec.ofNat 8 r, (n, b) :: ps,
        ⟨List.forall_mem_cons.mpr ⟨hne, hruns⟩, List.isChain_cons_cons.mpr ⟨hlink, hchain⟩⟩, ?_, ?_⟩
      · rw [hbytes]
        rfl
      · rw [pairBytes_cons, rlExpand_pair, hexpand, hrun]
        rfl

/-- The frame of any bytes is canonical and expands to them. -/
theorem rlEncode_frame (bs : List Byte) :
    ∃ ps, canonicalPairs ps ∧ rlEncode bs = pairBytes ps ∧ rlExpand (pairBytes ps) = bs := by
  cases bs with
  | nil => exact ⟨[], ⟨nofun, .nil⟩, rfl, rfl⟩
  | cons b t =>
    obtain ⟨n, ps, hcanonical, hbytes, hexpand⟩ := rleScan_frame b 1 t (by decide) (by decide)
    exact ⟨(n, b) :: ps, hcanonical, hbytes, hexpand⟩

theorem rlExpand_rlEncode (bs : List Byte) : rlExpand (rlEncode bs) = bs := by
  obtain ⟨ps, -, hbytes, hexpand⟩ := rlEncode_frame bs
  rw [hbytes, hexpand]

/-- Bytes with no equal neighbours become pairs of run 1. -/
theorem rlEncode_of_no_equal_neighbours {bs : List Byte} (h : bs.IsChain (· ≠ ·)) :
    rlEncode bs = pairBytes (bs.map fun b => (1#8, b)) := by
  have hcanonical : canonicalPairs (bs.map fun b => (1#8, b)) := by
    refine ⟨?_, (List.isChain_map _).mpr (h.imp fun _ _ hne => .inr hne)⟩
    rw [List.forall_mem_map]
    exact fun _ _ => (by decide : 1#8 ≠ 0#8)
  have hexpand : rlExpand (pairBytes (bs.map fun b => (1#8, b))) = bs := by
    rw [rlExpand_pairBytes, List.flatMap_map]
    exact List.flatMap_singleton' bs
  have hframe := rlEncode_rlExpand_of_canonicalPairs hcanonical
  rwa [hexpand] at hframe

/-- Runs of 1 to 255 over 1024 bytes are 5 to 1024 pairs (R183 item 2). -/
theorem rlEncode_length_bounds {bs : List Byte} (h : bs.length = 1024) :
    10 ≤ (rlEncode bs).length ∧ (rlEncode bs).length ≤ 2048 := by
  obtain ⟨ps, ⟨hruns, -⟩, hbytes, hexpand⟩ := rlEncode_frame bs
  have hbounds := length_bounds_of_runs hruns
  rw [hexpand, h] at hbounds
  rw [hbytes, pairBytes_length]
  omega

theorem eq_replicate_of_equal_neighbours {bs : List Byte}
    (h : ∀ i, i + 1 < bs.length → bs.getD i 0#8 = bs.getD (i + 1) 0#8) :
    bs = List.replicate bs.length (bs.getD 0 0#8) := by
  have hfirst : ∀ i < bs.length, bs.getD i 0#8 = bs.getD 0 0#8 := by
    intro i hi
    induction i with
    | zero => rfl
    | succ i ih => rw [← h i hi, ih (Nat.lt_of_succ_lt hi)]
  refine List.eq_replicate_of_mem fun b hb => ?_
  obtain ⟨i, hi, rfl⟩ := List.getElem_of_mem hb
  rw [← hfirst i hi, List.getD_eq_getElem]

end Sys2Proof.Machine
end

section
/-! The Run-Length Codec's commands: the frame a state holds, its validation, and the states ENCODE and DECODE
answer. -/

namespace Sys2Proof.Machine

/-! ### The frame a state holds (43 R185) -/

/-- The first `m` pairs of RLE_BUF. -/
def State.framePairs (s : State) (m : Nat) : List (Byte × Byte) :=
  (List.range m).map fun k => (s.readByte .rleBuf (2 * k), s.readByte .rleBuf (2 * k + 1))

section
variable (s : State)

theorem State.framePairs_succ (m : Nat) :
    s.framePairs (m + 1) = s.framePairs m ++ [(s.readByte .rleBuf (2 * m), s.readByte .rleBuf (2 * m + 1))] := by
  rw [State.framePairs, List.range_succ, List.map_append]
  rfl

theorem State.readBytes_rleBuf (m : Nat) : s.readBytes .rleBuf (2 * m) = pairBytes (s.framePairs m) := by
  induction m with
  | zero => rfl
  | succ m ih =>
    rw [State.framePairs_succ, pairBytes, List.flatMap_append, ← pairBytes, ← ih, State.readBytes, Nat.mul_succ,
      List.range_succ, List.range_succ, List.append_assoc, List.map_append]
    rfl

theorem State.exists_framePairs_append {k m : Nat} (h : k ≤ m) : ∃ qs, s.framePairs m = s.framePairs k ++ qs := by
  obtain ⟨d, rfl⟩ := Nat.exists_eq_add_of_le h
  rw [State.framePairs, List.range_add, List.map_append]
  exact ⟨_, rfl⟩

theorem State.rlExpand_framePairs_length (m : Nat) :
    (rlExpand (pairBytes (s.framePairs m))).length =
      ((List.range m).map fun k => (s.readByte .rleBuf (2 * k)).toNat).sum := by
  rw [rlExpand_pairBytes_length, State.framePairs, List.map_map]
  rfl

/-- The bytes that pair `k` of the frame covers hold its value (R184). -/
theorem State.rlExpand_framePairs_getD {k m j : Nat} (hk : k < m)
    (hlo : ((List.range k).map fun i => (s.readByte .rleBuf (2 * i)).toNat).sum ≤ j)
    (hhi : j < ((List.range (k + 1)).map fun i => (s.readByte .rleBuf (2 * i)).toNat).sum) :
    j < (rlExpand (pairBytes (s.framePairs m))).length ∧
      (rlExpand (pairBytes (s.framePairs m))).getD j 0#8 = s.readByte .rleBuf (2 * k + 1) := by
  rw [← s.rlExpand_framePairs_length] at hlo hhi
  obtain ⟨qs, hqs⟩ := s.exists_framePairs_append hk
  rw [hqs, rlExpand_pairBytes_append, List.length_append, List.getD_append _ _ _ _ hhi]
  refine ⟨Nat.lt_add_right _ hhi, ?_⟩
  rw [s.framePairs_succ, rlExpand_pairBytes_append, rlExpand_pairBytes [_], List.flatMap_singleton] at hhi ⊢
  rw [List.length_append, List.length_replicate] at hhi
  rw [List.getD_append_right _ _ _ _ hlo]
  exact List.getD_replicate _ (by omega)

/-! ### Validation (43 R185) -/

theorem State.frameRuns_any_zero (n : Nat) :
    ((s.frameRuns n).any fun r => r == 0#8) = true ↔ ∃ k < n / 2, s.readByte .rleBuf (2 * k) = 0#8 := by
  simp [State.frameRuns]

theorem State.frameRuns_sum (n : Nat) :
    ((s.frameRuns n).map (·.toNat)).sum =
      ((List.range (n / 2)).map fun k => (s.readByte .rleBuf (2 * k)).toNat).sum := by
  rw [State.frameRuns, List.map_map]
  rfl

variable {n : Nat}

theorem State.validate_of_too_long (h : 2048 < n) : s.validate n = .rleTooLong := if_pos h

theorem State.validate_of_odd (hlen : n ≤ 2048) (h : n % 2 = 1) : s.validate n = .rleOdd := by
  rw [State.validate, if_neg (Nat.not_lt.mpr hlen), if_pos h]

theorem State.validate_of_zero_run (hlen : n ≤ 2048) (heven : n % 2 = 0)
    (h : ∃ k < n / 2, s.readByte .rleBuf (2 * k) = 0#8) : s.validate n = .rleZeroRun := by
  rw [State.validate, if_neg (Nat.not_lt.mpr hlen), if_neg (by omega), if_pos ((s.frameRuns_any_zero n).mpr h)]

/-- With the first three checks passed, the sum of the runs decides. -/
theorem State.validate_of_runs (hlen : n ≤ 2048) (heven : n % 2 = 0)
    (hruns : ∀ k < n / 2, s.readByte .rleBuf (2 * k) ≠ 0#8) :
    s.validate n =
      if ((List.range (n / 2)).map fun k => (s.readByte .rleBuf (2 * k)).toNat).sum = 1024 then .ok
      else .rleLength := by
  have hnone : ¬ ((s.frameRuns n).any fun r => r == 0#8) = true := fun h => by
    obtain ⟨k, hk, hzero⟩ := (s.frameRuns_any_zero n).mp h
    exact hruns k hk hzero
  rw [State.validate, if_neg (Nat.not_lt.mpr hlen), if_neg (by omega), if_neg hnone, s.frameRuns_sum, ite_not]

theorem State.validate_eq_ok_of_framePairs {m : Nat} (hlen : 2 * m ≤ 2048)
    (hruns : ∀ p ∈ s.framePairs m, p.1 ≠ 0#8)
    (hexpand : (rlExpand (pairBytes (s.framePairs m))).length = 1024) : s.validate (2 * m) = .ok := by
  have hhalf : 2 * m / 2 = m := Nat.mul_div_cancel_left m (by decide)
  rw [s.rlExpand_framePairs_length] at hexpand
  rw [s.validate_of_runs hlen (Nat.mul_mod_right 2 m), hhalf, if_pos hexpand]
  exact fun k hk => hruns _ (List.mem_map_of_mem (List.mem_range.mpr (hhalf ▸ hk)))

/-! ### DECODE (43 R186) -/

/-- The state DECODE answers on a frame that validates. -/
def State.afterDecode (s : State) : State :=
  (s.writeBytes .packBuf 0 (rlExpand (s.readBytes .rleBuf s.frameLen))).complete

theorem exec_decodeRle_of_ok (h : s.validate s.frameLen = .ok) : exec .decodeRle s = .next s.afterDecode := by
  obtain ⟨-, hexec⟩ | ⟨hne, -⟩ := execDecode_cases s
  · exact hexec
  · exact absurd h hne

theorem exec_decodeRle_of_code {c : ResultCode} (h : s.validate s.frameLen = c) (hc : c ≠ .ok) :
    exec .decodeRle s = .next { s with resultCode := c.code } := by
  obtain ⟨hok, -⟩ | ⟨-, hexec⟩ := execDecode_cases s
  · exact absurd (h.symm.trans hok) hc
  · rw [h] at hexec
    exact hexec

theorem State.afterDecode_frame :
    s.afterDecode = { s with packBuf := s.afterDecode.packBuf, resultCode := 0#4 } := rfl

theorem State.afterDecode_readByte (h : (rlExpand (s.readBytes .rleBuf s.frameLen)).length = 1024) {i : Nat}
    (hi : i < 1024) :
    s.afterDecode.readByte .packBuf i = (rlExpand (s.readBytes .rleBuf s.frameLen)).getD i 0#8 := by
  have hinside : i < 0 + (rlExpand (s.readBytes .rleBuf s.frameLen)).length := by rwa [h, Nat.zero_add]
  exact (s.readByte_writeBytes .packBuf .packBuf 0 i _).trans (if_pos ⟨rfl, Nat.zero_le i, hinside, hi⟩)

/-! ### ENCODE (43 R182) and DECODE after it (43 R187) -/

/-- The state ENCODE answers. -/
def State.afterEncode (s : State) : State :=
  ({ s.writeBytes .rleBuf 0 s.encodedFrame with rleLen := BitVec.ofNat 12 s.encodedFrame.length }).complete

theorem exec_encodeRle : exec .encodeRle s = .next s.afterEncode := rfl

theorem State.encodedFrame_length_bounds : 10 ≤ s.encodedFrame.length ∧ s.encodedFrame.length ≤ 2048 :=
  rlEncode_length_bounds (s.readBytes_length .packBuf 1024)

theorem State.afterEncode_frame :
    s.afterEncode =
      { s with rleBuf := s.afterEncode.rleBuf, rleLen := s.afterEncode.rleLen, resultCode := 0#4 } := rfl

theorem State.afterEncode_frameLen : s.afterEncode.frameLen = s.encodedFrame.length := by
  have hmax := s.encodedFrame_length_bounds.2
  exact Nat.mod_eq_of_lt (show s.encodedFrame.length < 4096 by omega)

/-- Everything ENCODE does to what RLE_BUF reads as: the frame, then the old bytes. -/
theorem State.afterEncode_readByte (j : Nat) :
    s.afterEncode.readByte .rleBuf j =
      if j < s.encodedFrame.length then s.encodedFrame.getD j 0#8 else s.readByte .rleBuf j := by
  have hmax := s.encodedFrame_length_bounds.2
  have hinside : (Bank.rleBuf = .rleBuf ∧ 0 ≤ j ∧ j < 0 + s.encodedFrame.length ∧ j < 2048) ↔
      j < s.encodedFrame.length :=
    ⟨fun ⟨_, _, hj, _⟩ => by omega, fun hj => ⟨rfl, Nat.zero_le j, by omega, by omega⟩⟩
  refine (s.readByte_writeBytes .rleBuf .rleBuf 0 j s.encodedFrame).trans ?_
  exact if_congr hinside rfl rfl

theorem State.afterEncode_readBytes :
    s.afterEncode.readBytes .rleBuf s.encodedFrame.length = s.encodedFrame :=
  List.ext_getElem (State.readBytes_length _ _ _) fun j _ hj => by
    rw [← List.getD_eq_getElem (d := 0#8), State.readBytes_getD _ _ hj, s.afterEncode_readByte, if_pos hj,
      List.getD_eq_getElem]

/-- The frame that ENCODE makes validates: it is canonical and expands to the 1024 bytes of PACK_BUF. -/
theorem State.afterEncode_validate : s.afterEncode.validate s.afterEncode.frameLen = .ok := by
  obtain ⟨ps, ⟨hruns, -⟩, hbytes, hexpand⟩ := rlEncode_frame (s.readBytes .packBuf 1024)
  have hlen : s.encodedFrame.length = 2 * ps.length := (congrArg List.length hbytes).trans (pairBytes_length ps)
  have hpairs : s.afterEncode.framePairs ps.length = ps := by
    refine pairBytes_injective ?_
    rw [← State.readBytes_rleBuf, ← hlen, s.afterEncode_readBytes]
    exact hbytes
  rw [s.afterEncode_frameLen, hlen]
  refine s.afterEncode.validate_eq_ok_of_framePairs (hlen ▸ s.encodedFrame_length_bounds.2) ?_ ?_
  · rwa [hpairs]
  · rw [hpairs, hexpand, State.readBytes_length]

theorem State.afterEncode_expand :
    rlExpand (s.afterEncode.readBytes .rleBuf s.afterEncode.frameLen) = s.readBytes .packBuf 1024 := by
  rw [s.afterEncode_frameLen, s.afterEncode_readBytes]
  exact rlExpand_rlEncode _

theorem State.afterDecode_afterEncode_readByte {i : Nat} (hi : i < 1024) :
    s.afterEncode.afterDecode.readByte .packBuf i = s.readByte .packBuf i := by
  rw [State.afterDecode_readByte _ (by rw [s.afterEncode_expand, State.readBytes_length]) hi, s.afterEncode_expand,
    s.readBytes_getD .packBuf hi]

end

end Sys2Proof.Machine
end

section
/-! The statements on the Run-Length Codec (spec 43). -/

namespace Sys2Proof.Proofs

open Sys2Proof Sys2Proof.Machine

/-- Settles O39: `n` is `n / 255` full runs and the rest. -/
theorem longRunsSplitIntoPairsOf255 : Obligations.LongRunsSplitIntoPairsOf255 := by
  intro n v
  have hsplit := rlEncode_replicate (n / 255) (Nat.mod_lt n (by decide)) v
  rwa [Nat.div_add_mod] at hsplit

/-- Settles O40: the scan emits the pairs of the runs it reads (`rleScan_frame`). -/
theorem expandUndoesEncode : Obligations.ExpandUndoesEncode := rlExpand_rlEncode

/-- Settles O41, pair by pair: the scan stops at the end of each run of the expansion and nowhere else. -/
theorem encodeUndoesExpandOnCanonicalFrames : Obligations.EncodeUndoesExpandOnCanonicalFrames :=
  fun _ h => rlEncode_rlExpand_of_canonicalPairs h

/-- Settles O38: the frame is the bytes of a canonical list of pairs (`rlEncode_frame`), which is 5 pairs for one long
run and one pair a byte where no neighbours are equal. -/
theorem encodedFramesAreCanonical : Obligations.EncodedFramesAreCanonical := by
  intro bs hlength
  obtain ⟨hmin, hmax⟩ := rlEncode_length_bounds hlength
  obtain ⟨ps, ⟨hruns, hchain⟩, hbytes, hexpand⟩ := rlEncode_frame bs
  have hpairs : (rlEncode bs).length / 2 = ps.length := by
    rw [hbytes, pairBytes_length, Nat.mul_div_cancel_left _ (by decide)]
  refine ⟨fun k hk => ?_, ?_, ?_, hmin, hmax, fun huniform => ?_, fun hdistinct => ?_, fun k hk hshort => ?_⟩
  · rw [hpairs] at hk
    rw [hbytes, (pair_of_pairBytes ps hk).1]
    exact run_bounds (hruns _ (List.getElem_mem hk))
  · rw [hpairs, hbytes, map_pairRun_pairBytes, ← rlExpand_pairBytes_length, hexpand, hlength]
  · rw [hbytes, pairBytes_length, Nat.mul_mod_right]
  · have hsame := eq_replicate_of_equal_neighbours fun i hi => huniform i (by omega)
    rw [hsame, hlength]
    exact congrArg List.length (rlEncode_replicate 4 (m := 4) (by decide) _)
  · have hneighbours : bs.IsChain (· ≠ ·) := List.isChain_iff_getElem.mpr fun i hi => by
      have hne := hdistinct i (by omega)
      rwa [List.getD_eq_getElem, List.getD_eq_getElem] at hne
    rw [rlEncode_of_no_equal_neighbours hneighbours, pairBytes_length, List.length_map, hlength]
  · rw [hpairs] at hk
    obtain ⟨hrun, hvalue⟩ := pair_of_pairBytes ps (Nat.lt_of_succ_lt hk)
    rw [hbytes, hrun] at hshort
    rw [hbytes, hvalue, (pair_of_pairBytes ps hk).2]
    refine (hchain.getElem k hk).resolve_left fun hfull => ?_
    rw [hfull] at hshort
    exact Nat.lt_irrefl 255 hshort

/-- Settles O37: the frame fits RLE_BUF and RLE_LEN (`encodedFrame_length_bounds`), so it is written whole. -/
theorem encodeWritesTheFrameAndItsLength : Obligations.EncodeWritesTheFrameAndItsLength := by
  refine ⟨fun s => ?_, decode_eq_ok_iff (i := .encodeRle) rfl, fun w hop hne => ?_⟩
  · obtain ⟨hmin, hmax⟩ := s.encodedFrame_length_bounds
    have hlen := s.afterEncode_frameLen
    refine ⟨_, exec_encodeRle s, hmin, hmax, hlen, fun j hj => ?_, fun j hj => ?_, s.afterEncode_frame⟩
    · exact (s.afterEncode_readByte j).trans (if_pos (hlen ▸ hj))
    · exact (s.afterEncode_readByte j).trans (if_neg (Nat.not_lt.mpr (hlen ▸ hj)))
  · rw [decode_encodeRle hop]
    exact decodeN_of_ne_encodeN hop hne .encodeRle

/-- Settles O42: one lemma for each check of `validate`, in its order. -/
theorem validateReturnsTheFirstCodeThatApplies : Obligations.ValidateReturnsTheFirstCodeThatApplies := by
  refine fun s n => ⟨s.validate_of_too_long, s.validate_of_odd, s.validate_of_zero_run,
    fun hlen heven hruns hsum => ?_, fun hlen heven hruns hsum => ?_, rfl⟩
  · rw [s.validate_of_runs hlen heven hruns, if_neg hsum]
  · rw [s.validate_of_runs hlen heven hruns, if_pos hsum]

/-- Settles O43: DECODE expands on OK and else raises the code that `validate` returns; in the expansion, the runs before
a pair say which bytes it covers (`rlExpand_framePairs_getD`). -/
theorem decodeExpandsOrReportsOneCode : Obligations.DecodeExpandsOrReportsOneCode := by
  refine ⟨fun s hlen heven hruns hsum => ?_, fun s => ⟨fun hlong => ?_, fun hlen hodd => ?_,
    fun hlen heven hzero => ?_, fun hlen heven hruns hsum => ?_⟩, decode_eq_ok_iff (i := .decodeRle) rfl,
    fun w hop hne => ?_⟩
  · have hok : s.validate s.frameLen = .ok := (s.validate_of_runs hlen heven hruns).trans (if_pos hsum)
    have hframe : s.readBytes .rleBuf s.frameLen = pairBytes (s.framePairs (s.rleLen.toNat / 2)) := by
      rw [← s.readBytes_rleBuf, Nat.mul_div_cancel' (Nat.dvd_of_mod_eq_zero heven)]
      rfl
    have hlength : (rlExpand (s.readBytes .rleBuf s.frameLen)).length = 1024 := by
      rw [hframe, s.rlExpand_framePairs_length, hsum]
    refine ⟨_, exec_decodeRle_of_ok s hok, fun k j hk hlo hhi => ?_, s.afterDecode_frame⟩
    obtain ⟨hj, hvalue⟩ := s.rlExpand_framePairs_getD hk hlo hhi
    rw [← hframe, hlength] at hj
    exact ⟨hj, by rw [s.afterDecode_readByte hlength hj, hframe, hvalue]⟩
  · exact exec_decodeRle_of_code s (s.validate_of_too_long hlong) nofun
  · exact exec_decodeRle_of_code s (s.validate_of_odd hlen hodd) nofun
  · exact exec_decodeRle_of_code s (s.validate_of_zero_run hlen heven hzero) nofun
  · exact exec_decodeRle_of_code s ((s.validate_of_runs hlen heven hruns).trans (if_neg hsum)) nofun
  · rw [decode_decodeRle hop]
    exact decodeN_of_ne_encodeN hop hne .decodeRle

/-- Settles O44: the frame validates (`afterEncode_validate`) and expands to the bytes of PACK_BUF. -/
theorem decodeAfterEncodeRestoresPackBuf : Obligations.DecodeAfterEncodeRestoresPackBuf :=
  fun s => ⟨_, _, exec_encodeRle s, exec_decodeRle_of_ok _ s.afterEncode_validate, rfl,
    fun _ hi => s.afterDecode_afterEncode_readByte hi, s.afterEncode.afterDecode_frame⟩

end Sys2Proof.Proofs
end

section
/-! Facts about reset that the statements on spec 70 use: the block that a reset leaves and what it reads as, and the
bus after a held access is cut. -/

namespace Sys2Proof.Machine

/-! ### The block after a reset (70 R231) -/

/-- The block is as reset number `n` leaves it. The host's own view, the queue and the bus value, is left open. -/
def State.IsAfterReset (s : State) (n : Nat) : Prop :=
  s = { State.afterReset n with pending := s.pending, busData := s.busData }

theorem State.afterReset_isAfterReset (n : Nat) : (State.afterReset n).IsAfterReset n := rfl

theorem State.resetBlock_isAfterReset (s : State) : s.resetBlock.IsAfterReset (s.resets + 1) := rfl

/-- A cut access touches the bus value at most. -/
theorem State.IsAfterReset.cutAccess {s : State} {n : Nat} (h : s.IsAfterReset n) (cut : Option Access) :
    (s.cutAccess cut).IsAfterReset n := by
  unfold State.IsAfterReset at h
  cases cut with
  | none => exact h
  | some x =>
    cases x with
    | read a size => rw [h]; rfl
    | write8 | write16 | write32 => exact h

section

variable {s : State} {n : Nat}

theorem State.IsAfterReset.resets (h : s.IsAfterReset n) : s.resets = n := by
  rw [h]
  rfl

/-- No byte is listed after a reset. -/
theorem State.IsAfterReset.readByte (h : s.IsAfterReset n) (k : Bank) (i : Nat) :
    s.readByte k i = k.unlistedByte n i := by
  rw [h]
  cases k <;> rfl

theorem State.IsAfterReset.pixel (h : s.IsAfterReset n) (x y : Nat) : s.pixel x y = 0#8 :=
  h.readByte .canvas _

/-- No register depends on the number of the reset. -/
theorem State.IsAfterReset.memRead_register (h : s.IsAfterReset n) {a : Addr} (haligned : aligned a .four = true)
    (hreg : inRegisterSpace a = true) : s.memRead a .four = State.reset.regWord a.toNat := by
  rw [State.memRead_register s haligned hreg, h]
  rfl

/-- The reset values of the registers other than CMD, in the order of their addresses. -/
theorem State.IsAfterReset.registers (h : s.IsAfterReset n) :
    s.memRead 0x0004#16 .four = 0x00000000#32 ∧ s.memRead 0x0008#16 .four = 0x00000001#32 ∧
      s.memRead 0x000C#16 .four = 0x00000000#32 ∧ s.memRead 0x0010#16 .four = 0x00400080#32 ∧
      s.memRead 0x0014#16 .four = 0x00000000#32 := by
  rw [h.memRead_register rfl rfl, h.memRead_register rfl rfl, h.memRead_register rfl rfl,
    h.memRead_register rfl rfl, h.memRead_register rfl rfl]
  decide

end

/-! ### The bus after a cut access (70 R230) -/

theorem State.cutAccess_busData_of_not_read (s : State) {cut : Option Access}
    (h : ∀ a n, cut ≠ some (.read a n)) : (s.cutAccess cut).busData = s.busData := by
  cases cut with
  | none => rfl
  | some x =>
    cases x with
    | read a n => exact absurd rfl (h a n)
    | write8 | write16 | write32 => rfl

theorem cutReadData_lt (n : Nat) (size : AccessSize) : (cutReadData n size).toNat < 2 ^ (8 * size.bytes) := by
  cases size with
  | one =>
    rw [cutReadData, BitVec.toNat_setWidth_of_le (by decide)]
    exact BitVec.isLt _
  | two =>
    rw [cutReadData, BitVec.toNat_setWidth_of_le (by decide)]
    exact BitVec.isLt _
  | four => exact (Config.cutReadValue n).isLt

/-! ### The step that performs a reset (70 R230) -/

theorem step_of_reset {s : State} {cut : Option Access} {rest : List HostEvent} (h : s.pending = .reset cut :: rest) :
    step s = .next (({ s with pending := rest } : State).resetEvent cut) := by
  rw [step, serveNext, h]
  rfl

end Sys2Proof.Machine
end

section
/-! The statements on reset (spec 70). -/

namespace Sys2Proof.Proofs

open Sys2Proof Sys2Proof.Machine

/-- Settles O55: a reset leaves the block as `State.IsAfterReset` says, and cutting an access changes the bus alone. -/
theorem resetRestoresTheResetState : Obligations.ResetRestoresTheResetState := by
  intro s cut rest hp
  have h : (({ s with pending := rest } : State).resetEvent cut).IsAfterReset (s.resets + 1) :=
    (State.resetBlock_isAfterReset { s with pending := rest }).cutAccess cut
  obtain ⟨hresult, hbrush, hstroke, hview, hrleLen⟩ := h.registers
  refine ⟨_, step_of_reset hp, fun x y _ _ => h.pixel x y, hresult, hbrush, hstroke, hview, hrleLen,
    fun i _ => h.readByte .packBuf i, fun i _ => h.readByte .rleBuf i, h.resets, State.cutAccess_pending _ cut,
    State.cutAccess_busData_of_not_read _, ?_⟩
  rintro a n rfl
  exact cutReadData_lt (s.resets + 1) n

/-- Settles O56: the reset state is the state after reset number 0, whose buffer bytes the bus reads in the windows. -/
theorem resetStateReadsAsTheSpecSays : Obligations.ResetStateReadsAsTheSpecSays := by
  have h := State.afterReset_isAfterReset 0
  obtain ⟨hresult, hbrush, hstroke, hview, hrleLen⟩ := h.registers
  exact ⟨hresult, hbrush, hstroke, hview, hrleLen, fun x y _ _ => h.pixel x y,
    fun i hi => (State.byteAt_of_windowOf (windowOf_packBuf hi) _).trans (h.readByte .packBuf i),
    fun i hi => (State.byteAt_of_windowOf (windowOf_rleBuf hi) _).trans (h.readByte .rleBuf i)⟩

end Sys2Proof.Proofs
end
